-- ==== Sys2Proof/Word.lean ====
section
/-! DEFINITION. The word types of the KXN engine (spec/00_scope.md R9): 8-bit data, 16-bit addresses, 32-bit ARGB pixels. -/

namespace Sys2Proof

/-- One byte: memory cell, stack element, ALU operand and result, immediate (R9, R50). -/
abbrev Byte := BitVec 8

/-- A 16-bit address: an `addr` operand, `SP`, `BP`, a popped address (R9, R72). -/
abbrev Addr := BitVec 16

/-- One framebuffer pixel, opaque ARGB (R36, R180). -/
abbrev Argb := BitVec 32

end Sys2Proof
end

