-- ==== Sys2Proof/Config.lean ====
section
/-! DEFINITION. What is fixed for the machine (spec/00_scope.md R9) and the open parameters of the host, which have no body:
nothing in Lean can evaluate them or prove a value of them (spec/92_eei_decisions.md D13, D20). -/

namespace Sys2Proof.Config

/-- Bytes of memory; addresses are `0 .. memorySize - 1` (R9, R50). -/
abbrev memorySize : Nat := 65536

/-- Framebuffer width in pixels (R9, R181). -/
abbrev screenWidth : Nat := 320

/-- Framebuffer height in pixels (R9, R181). -/
abbrev screenHeight : Nat := 240

/-- Pixels of the framebuffer and of the display (R36, R181). -/
abbrev pixelCount : Nat := screenWidth * screenHeight

/-- HOST_INIT (R181, R232, D13): the colour of each framebuffer pixel before anything is drawn, by its index `320 y + x`: free
(notes/assumptions/5.md). -/
opaque initialPixel : Nat → Argb

/-- HOST_INIT (R181, D13): the colour the display shows at each pixel before the first `REFRESH`, by its index: free
(notes/assumptions/5.md). -/
opaque initialDisplay : Nat → Argb

/-- HOST_LINE (R171, D13): the pixels `(x, y)` of the line from `(x1, y1)` to `(x2, y2)`, before clipping, in the
order `x1 y1 x2 y2`. The spec does not say which Bresenham variant, or whether the end points are drawn: free
(notes/assumptions/6.md). -/
opaque linePixels : Byte → Byte → Byte → Byte → List (Nat × Nat)

/-- HOST_AFTER_FAULT (R162, D13): the bytes `PRINT_CHAR` writes to standard output after a port fault: free,
one draw per index (notes/assumptions/7.md). -/
opaque stdoutAfterFault : Nat → List Byte

/-- HOST_AFTER_FAULT (R162, D13): the pixels `(x, y)` and colours a drawing operation draws after a port fault,
before clipping: free, one draw per index (notes/assumptions/7.md). -/
opaque drawnAfterFault : Nat → List ((Nat × Nat) × Argb)

end Sys2Proof.Config
end

