-- ==== Sys2Proof/Syntax.lean ====
section
/-! DEFINITION. The syntax of KXN bytecode: one constructor for each of the 34 rows of spec/opcode_table.json
(spec/30_encoding.md R76). Operands are the bytes as they stand (R72). `a` is the byte below the top, `b` the top (R17). -/

namespace Sys2Proof

/-- The 34 instructions, in opcode order (R2, R76). -/
inductive Instr
  /-- `NOP` (R100): no operation. -/
  | nop
  /-- `HALT` (R160): clean stop. -/
  | halt
  /-- `PUSH` (R101): push an immediate byte. -/
  | push (imm8 : Byte)
  /-- `POP` (R102): discard the top byte. -/
  | pop
  /-- `DUP` (R103): duplicate the top byte. -/
  | dup
  /-- `SWAP` (R104): exchange the top two bytes. -/
  | swap
  /-- `ADD` (R111): a + b mod 256. -/
  | add
  /-- `SUB` (R112): a - b mod 256. -/
  | sub
  /-- `MUL` (R113): a * b mod 256. -/
  | mul
  /-- `DIV` (R114): unsigned quotient a / b. -/
  | div
  /-- `MOD` (R115): unsigned remainder a % b. -/
  | mod
  /-- `NEG` (R116): two's complement of a. -/
  | neg
  /-- `AND` (R117): bitwise and. -/
  | and
  /-- `OR` (R118): bitwise or. -/
  | or
  /-- `XOR` (R119): bitwise exclusive or. -/
  | xor
  /-- `NOT` (R120): bitwise complement. -/
  | not
  /-- `SHL` (R121): a shifted left by b. -/
  | shl
  /-- `SHR` (R122): a shifted right by b, zero fill. -/
  | shr
  /-- `EQ` (R131): 1 if a = b. -/
  | eq
  /-- `NEQ` (R132): 1 if a differs from b. -/
  | neq
  /-- `GT` (R133): 1 if a > b, unsigned. -/
  | gt
  /-- `LT` (R134): 1 if a < b, unsigned. -/
  | lt
  /-- `GTE` (R135): 1 if a >= b, unsigned. -/
  | gte
  /-- `LTE` (R136): 1 if a <= b, unsigned. -/
  | lte
  /-- `LOAD` (R140): push the byte at addr. -/
  | load (addr : Addr)
  /-- `STORE` (R141): pop a byte and write it at addr. -/
  | store (addr : Addr)
  /-- `LOAD_IND` (R142): push the byte at a popped address. -/
  | loadInd
  /-- `STORE_IND` (R143): pop an address, then a byte, and write it there. -/
  | storeInd
  /-- `JMP` (R150): jump to addr. -/
  | jmp (addr : Addr)
  /-- `JZ` (R151): pop a byte, jump if it is zero. -/
  | jz (addr : Addr)
  /-- `JNZ` (R152): pop a byte, jump if it is not zero. -/
  | jnz (addr : Addr)
  /-- `CALL` (R153): push the return address, jump to addr. -/
  | call (addr : Addr)
  /-- `RET` (R154): pop the return address and jump to it. -/
  | ret
  /-- `IO` (R161): call the host with the operation id op8; SYS is a second spelling. -/
  | io (op8 : Byte)
deriving DecidableEq, Repr

end Sys2Proof
end

