-- ==== Sys2Proof/WellFormed.lean ====
section
/-! DEFINITION. Well-formedness (spec/30_encoding.md). The operands of an instruction are bit vectors of exactly the
encoded width and every bit pattern of an operand byte is legal (R72), so every term of `Instr` is well formed; what can be ill
formed is an image (R91, R230) and a label name of the assembler (R86). -/

namespace Sys2Proof

/-- The operand ranges of R72, instruction by instruction. They hold of every term (`Instr.wellFormed_all` in Laws). -/
def Instr.wellFormed : Instr → Bool
  | .nop => true
  | .halt => true
  | .push imm8 => decide (imm8.toNat < 256)
  | .pop => true
  | .dup => true
  | .swap => true
  | .add => true
  | .sub => true
  | .mul => true
  | .div => true
  | .mod => true
  | .neg => true
  | .and => true
  | .or => true
  | .xor => true
  | .not => true
  | .shl => true
  | .shr => true
  | .eq => true
  | .neq => true
  | .gt => true
  | .lt => true
  | .gte => true
  | .lte => true
  | .load addr => decide (addr.toNat < 65536)
  | .store addr => decide (addr.toNat < 65536)
  | .loadInd => true
  | .storeInd => true
  | .jmp addr => decide (addr.toNat < 65536)
  | .jz addr => decide (addr.toNat < 65536)
  | .jnz addr => decide (addr.toNat < 65536)
  | .call addr => decide (addr.toNat < 65536)
  | .ret => true
  | .io op8 => decide (op8.toNat < 256)

/-- An image is a byte sequence of at most 65 536 bytes (R91, R230). -/
def imageWellFormed (image : List Byte) : Bool := decide (image.length ≤ Config.memorySize)

/-- `[A-Za-z_]` (R86). -/
def isNameStart (c : Char) : Bool :=
  decide (65 ≤ c.toNat ∧ c.toNat ≤ 90) || decide (97 ≤ c.toNat ∧ c.toNat ≤ 122) || c == '_'

/-- `[0-9]`. -/
def isDecimalDigit (c : Char) : Bool := decide (48 ≤ c.toNat ∧ c.toNat ≤ 57)

/-- A label name matches `[A-Za-z_][A-Za-z0-9_]*` and has at most 63 characters (R86). -/
def labelWellFormed : List Char → Bool
  | [] => false
  | c :: cs => isNameStart c && cs.all (fun d => isNameStart d || isDecimalDigit d) && decide (cs.length < 63)

end Sys2Proof
end

