-- ==== Sys2Proof/Decode.lean ====
section
/-! DEFINITION. The instruction encodings of spec/30_encoding.md: the opcode map (R76), the decoder over bytes, total, with the
reasons it rejects (R75, R77, R79), the encoder (R71, R72), and the disassembler (R80). -/

namespace Sys2Proof

/-- `(hi << 8) | lo`, a 16-bit value (R11, R72). -/
def addrOf (hi lo : Byte) : Addr := BitVec.ofNat 16 (hi.toNat * 256 + lo.toNat)

/-- `n & 0xFF` as a byte (R11). -/
def lowByte (n : Nat) : Byte := BitVec.ofNat 8 (n % 256)

/-- `(n >> 8) & 0xFF` as a byte (R11). -/
def highByte (n : Nat) : Byte := BitVec.ofNat 8 (n / 256 % 256)

/-- What an opcode byte fixes: the format, and the instruction to build from the operand (R70, R71). -/
inductive OpFormat
  /-- Format `N`: no operand. -/
  | plain (i : Instr)
  /-- Format `I8`: a 1-byte operand. -/
  | imm8 (mk : Byte → Instr)
  /-- Format `A16`: a 2-byte operand, fetched with `FetchImm16` (R74). -/
  | addr16 (mk : Addr → Instr)
  /-- Format `A16` of `JMP`, whose operand is read with `PeekImm16` (R74, R150). -/
  | peek16 (mk : Addr → Instr)
  /-- One of the 222 illegal opcodes (R77). -/
  | illegal

/-- The opcode map (R76); every byte from `0x22` on is illegal (R77). -/
def opcodeMap (op : Byte) : OpFormat :=
  match op.toNat with
  | 0x00 => .plain .nop
  | 0x01 => .plain .halt
  | 0x02 => .imm8 .push
  | 0x03 => .plain .pop
  | 0x04 => .plain .dup
  | 0x05 => .plain .swap
  | 0x06 => .plain .add
  | 0x07 => .plain .sub
  | 0x08 => .plain .mul
  | 0x09 => .plain .div
  | 0x0A => .plain .mod
  | 0x0B => .plain .neg
  | 0x0C => .plain .and
  | 0x0D => .plain .or
  | 0x0E => .plain .xor
  | 0x0F => .plain .not
  | 0x10 => .plain .shl
  | 0x11 => .plain .shr
  | 0x12 => .plain .eq
  | 0x13 => .plain .neq
  | 0x14 => .plain .gt
  | 0x15 => .plain .lt
  | 0x16 => .plain .gte
  | 0x17 => .plain .lte
  | 0x18 => .addr16 .load
  | 0x19 => .addr16 .store
  | 0x1A => .plain .loadInd
  | 0x1B => .plain .storeInd
  | 0x1C => .peek16 .jmp
  | 0x1D => .addr16 .jz
  | 0x1E => .addr16 .jnz
  | 0x1F => .addr16 .call
  | 0x20 => .plain .ret
  | 0x21 => .imm8 .io
  | _ => .illegal

/-- What decoding a sequence of bytes can give. -/
inductive Decoded
  /-- An instruction, and the bytes after it. -/
  | ok (i : Instr) (rest : List Byte)
  /-- The first byte is an illegal opcode (R77). -/
  | illegalOpcode (op : Byte)
  /-- The opcode is legal and an operand byte is missing. -/
  | truncated
  /-- There is no byte at all. -/
  | noByte
deriving DecidableEq, Repr

/-- Read a 1-byte operand (R72). -/
def decodeByteOperand (mk : Byte → Instr) : List Byte → Decoded
  | v :: rest => .ok (mk v) rest
  | [] => .truncated

/-- Read a 2-byte operand, low byte first (R54, R72). -/
def decodeAddrOperand (mk : Addr → Instr) : List Byte → Decoded
  | lo :: hi :: rest => .ok (mk (addrOf hi lo)) rest
  | _ => .truncated

/-- The decoder: the opcode byte alone fixes the format and the length (R70, R79). -/
def decode : List Byte → Decoded
  | [] => .noByte
  | op :: rest =>
    match opcodeMap op with
    | .plain i => .ok i rest
    | .imm8 mk => decodeByteOperand mk rest
    | .addr16 mk => decodeAddrOperand mk rest
    | .peek16 mk => decodeAddrOperand mk rest
    | .illegal => .illegalOpcode op

/-- The opcode byte of an instruction (R76). -/
def opcodeOf : Instr → Byte
  | .nop => 0x00#8
  | .halt => 0x01#8
  | .push _ => 0x02#8
  | .pop => 0x03#8
  | .dup => 0x04#8
  | .swap => 0x05#8
  | .add => 0x06#8
  | .sub => 0x07#8
  | .mul => 0x08#8
  | .div => 0x09#8
  | .mod => 0x0A#8
  | .neg => 0x0B#8
  | .and => 0x0C#8
  | .or => 0x0D#8
  | .xor => 0x0E#8
  | .not => 0x0F#8
  | .shl => 0x10#8
  | .shr => 0x11#8
  | .eq => 0x12#8
  | .neq => 0x13#8
  | .gt => 0x14#8
  | .lt => 0x15#8
  | .gte => 0x16#8
  | .lte => 0x17#8
  | .load _ => 0x18#8
  | .store _ => 0x19#8
  | .loadInd => 0x1A#8
  | .storeInd => 0x1B#8
  | .jmp _ => 0x1C#8
  | .jz _ => 0x1D#8
  | .jnz _ => 0x1E#8
  | .call _ => 0x1F#8
  | .ret => 0x20#8
  | .io _ => 0x21#8

/-- The operand bytes of an instruction in address order (R71, R72). -/
def operandBytes : Instr → List Byte
  | .nop => []
  | .halt => []
  | .push imm8 => [imm8]
  | .pop => []
  | .dup => []
  | .swap => []
  | .add => []
  | .sub => []
  | .mul => []
  | .div => []
  | .mod => []
  | .neg => []
  | .and => []
  | .or => []
  | .xor => []
  | .not => []
  | .shl => []
  | .shr => []
  | .eq => []
  | .neq => []
  | .gt => []
  | .lt => []
  | .gte => []
  | .lte => []
  | .load addr => [lowByte addr.toNat, highByte addr.toNat]
  | .store addr => [lowByte addr.toNat, highByte addr.toNat]
  | .loadInd => []
  | .storeInd => []
  | .jmp addr => [lowByte addr.toNat, highByte addr.toNat]
  | .jz addr => [lowByte addr.toNat, highByte addr.toNat]
  | .jnz addr => [lowByte addr.toNat, highByte addr.toNat]
  | .call addr => [lowByte addr.toNat, highByte addr.toNat]
  | .ret => []
  | .io op8 => [op8]

/-- The encoder: the opcode byte, then the operand bytes (R71). -/
def encode (i : Instr) : List Byte := opcodeOf i :: operandBytes i

/-- The length of an instruction in bytes (R70, R79). -/
def Instr.length (i : Instr) : Nat := 1 + (operandBytes i).length

/-- Decode at most `n` instructions in sequence, up to the end of the bytes (R80). DESIGN CHOICE (notes/assumptions/21.md): where
the bytes at some point do not decode, there is no listing at all, `none`, not even of what stands before. -/
def disassembleUpTo : Nat → List Byte → Option (List Instr)
  | _, [] => some []
  | 0, _ :: _ => none
  | n + 1, bs =>
    match decode bs with
    | .ok i rest => (disassembleUpTo n rest).map (i :: ·)
    | .illegalOpcode _ => none
    | .truncated => none
    | .noByte => none

/-- Disassembly from an instruction boundary (R80): an instruction takes at least one byte, so the number of bytes bounds
the number of instructions. -/
def disassemble (bs : List Byte) : Option (List Instr) := disassembleUpTo bs.length bs

/-- Three bytes, the longest instruction, from the low `nbits` bits of `w` with every higher bit 0; byte `k` is bits
`8k+7 .. 8k`, as spec/opcode_table.json numbers them. -/
def tableBytes (nbits w : Nat) : List Byte :=
  let v := w % 2 ^ nbits
  [BitVec.ofNat 8 v, BitVec.ofNat 8 (v / 256), BitVec.ofNat 8 (v / 65536)]

/-- The instruction the decoder reads from an instruction word numbered as spec/opcode_table.json numbers it. -/
def decodeTableWord (nbits w : Nat) : Option Instr :=
  match decode (tableBytes nbits w) with
  | .ok i _ => some i
  | .illegalOpcode _ => none
  | .truncated => none
  | .noByte => none

end Sys2Proof
end

