-- ==== Sys2Proof/Machine/State.lean ====
section
/-! DEFINITION. The state of the machine as plain data (spec/10_state.md): the block's state (R20), the host-I/O context the
block sees through its interfaces (R36), and two fields of the model's own, `schedule` and `free`. -/

namespace Sys2Proof.Machine

/-- The error slot: one of eight symbolic values (R32, D25). -/
inductive ErrorSlot
  /-- No error; the value after initialisation. -/
  | ok
  /-- A push with `SP = 0`. -/
  | stackOverflow
  /-- A pop with `SP = 0xFFFF`. -/
  | stackUnderflow
  /-- A byte in `0x22..0xFF` in opcode position. -/
  | invalidOpcode
  /-- `DIV` or `MOD` with divisor 0. -/
  | divisionByZero
  /-- A fetch at or past 65 536. -/
  | invalidAddress
  /-- Clean termination; not an error. -/
  | halt
  /-- A non-`OK` host status for an operation other than `EXIT`. -/
  | hostIo
deriving DecidableEq, Repr

/-- An input event the host latches into its context during the pump (R182). -/
inductive InputEvent
  /-- A key press with its key byte. -/
  | key (b : Byte)
  /-- A mouse event: position and button mask. -/
  | mouse (x y : BitVec 16) (mask : Byte)
deriving DecidableEq, Repr

/-- One answer of the host to `HOST_PUMP` (R46): `shutdown` or `continue`, and the events latched, in order. -/
structure PumpAnswer where
  /-- `true`: the answer is `shutdown`. `false`: `continue`. -/
  shutdown : Bool
  /-- The events latched during this pump, first first. -/
  events : List InputEvent
deriving DecidableEq, Repr

/-- Memory `M` as (address, byte) pairs: addresses rising, no byte 0, since an unlisted address reads as 0 (R53). -/
abbrev Memory := List Host.Cell

/-- What an address of `M` that is not listed reads as: 0 (R53, R230). -/
def unlistedByte : Byte := 0#8

/-- The canonical form of memory. -/
abbrev Memory.wf (m : Memory) : Prop :=
  (m.map Prod.fst).Pairwise (· < ·) ∧ ∀ c ∈ m, c.2 ≠ unlistedByte ∧ c.1 < Config.memorySize

/-- A picture of 320 × 240 pixels as (`320 y + x`, colour) pairs: keys rising, no entry with the colour an unlisted pixel has. -/
abbrev Pixels := List (Nat × Argb)

/-- The canonical form of a picture whose unlisted pixels have the colours `initial`. -/
abbrev Pixels.wf (initial : Nat → Argb) (p : Pixels) : Prop :=
  (p.map Prod.fst).Pairwise (· < ·) ∧ ∀ c ∈ p, c.1 < Config.pixelCount ∧ c.2 ≠ initial c.1

/-- The framebuffer (R36, R181). An unlisted pixel has the colour HOST_INIT gave it, which is free (D13; notes/assumptions/5.md). -/
abbrev Framebuffer := Pixels

/-- The canonical form of a framebuffer. -/
abbrev Framebuffer.wf (fb : Framebuffer) : Prop := Pixels.wf Config.initialPixel fb

/-- The host-I/O context (R36) and the host's devices (R211). The block observes it only through the `HOST_WAIT` answer and
the bytes the host pushes during `IO`. -/
structure HostContext where
  /-- The latest key byte. -/
  key : Byte
  /-- The key-available flag. -/
  keyAvailable : Bool
  /-- The waiting-for-input flag. -/
  waiting : Bool
  /-- Mouse x in logical pixels. -/
  mouseX : BitVec 16
  /-- Mouse y in logical pixels. -/
  mouseY : BitVec 16
  /-- The mouse button mask. -/
  mouseMask : Byte
  /-- The mouse-event flag. -/
  mouseEvent : Bool
  /-- The framebuffer, private to the dispatcher until `REFRESH` (R173). -/
  framebuffer : Framebuffer
  /-- The framebuffer as the last `REFRESH` flushed it to the display, `none` before the first; what the display shows is
  `HostContext.shown` (R173, R181). -/
  refreshed : Option Framebuffer
  /-- The bytes written to standard output, oldest first (R168). -/
  stdout : List Byte
deriving DecidableEq, Repr

/-- The machine: the block (`mem` to `error`, R20), the host context (R36), and the model's own `schedule` and `free`. -/
structure State where
  /-- The memory `M` (R50). -/
  mem : Memory
  /-- The program counter, `0..65536` (R22). -/
  pc : Nat
  /-- The stack pointer (R25). -/
  sp : Addr
  /-- The base pointer, which nothing reads or writes (R30). -/
  bp : Addr
  /-- The running flag (R31). -/
  running : Bool
  /-- The error slot (R32). -/
  error : ErrorSlot
  /-- The host-I/O context (R36). -/
  host : HostContext
  /-- The model's own: the pump answers still to come, oldest first; after the last the host answers `continue` and latches
  nothing (R46, D20; notes/assumptions/3.md). -/
  schedule : List PumpAnswer
  /-- The model's own: the index of the next free value (D13 HOST_AFTER_FAULT; notes/assumptions/7.md). -/
  free : Nat
deriving DecidableEq, Repr

/-- Why a step could end in a fault of the MODEL. There is no reason: each of the spec's six faults writes the error slot and
clears `running` (R15, R200), which is a next state, and a stopped block keeps its state (R44). The type is empty, so no claim
can hide behind a model fault (notes/assumptions/1.md). -/
inductive Fault
deriving DecidableEq, Repr

/-- Why the model has no run. -/
inductive Refusal
  /-- An arm of `exec` without a meaning; raised by `exec` alone. Safe. No arm of this model raises it. -/
  | notModelled (mnemonic : String)
  /-- `INIT` with an image of more than 65 536 bytes (R230, D8); raised by `State.init` alone, never by a step. Safe. -/
  | imageTooLong (length : Nat)
deriving DecidableEq, Repr

/-- The host context before a run. The spec gives no initial values (R232, D13): the values are this model's choice,
no input latched and nothing written (notes/assumptions/4.md); every pixel has its free initial colour
(notes/assumptions/5.md). -/
def HostContext.reset : HostContext where
  key := 0#8
  keyAvailable := false
  waiting := false
  mouseX := 0#16
  mouseY := 0#16
  mouseMask := 0#8
  mouseEvent := false
  framebuffer := []
  refreshed := none
  stdout := []

/-- The machine right after `INIT` of the empty image (R20, R230, R231; notes/assumptions/11.md). -/
def State.reset : State where
  mem := []
  pc := 0
  sp := 0xFFFF#16
  bp := 0xFFFF#16
  running := true
  error := .ok
  host := HostContext.reset
  schedule := []
  free := 0

end Sys2Proof.Machine
end

