-- ==== Sys2Proof/Machine/Ops.lean ====
section
/-! DEFINITION. The named operations over the state: memory and framebuffer access, the state updates, the fault `raise` and
the stop `halt` (the one way an instruction ends abnormally; there is no trap entry and no return from a fault, spec/60_exceptions.md
R206, R207), `Push`, `Pop` and the fetch primitives (spec/00_scope.md R13 to R15, spec/10_state.md R27, R28, spec/30_encoding.md
R73, R74). A primitive takes the rest of the instruction as its last argument: where it faults, the rest does not run (R15). -/

namespace Sys2Proof.Machine

/-- What an instruction or a step answers. -/
abbrev Result := Host.Outcome State Fault Refusal

/-! ### Sorted lists of keys and values -/

/-- The value listed for a key. -/
def assocFind {β : Type} (k : Nat) : List (Nat × β) → Option β
  | [] => none
  | (k', v) :: rest => if k = k' then some v else assocFind k rest

/-- List `v` for `k`, keeping the keys rising. -/
def assocInsert {β : Type} (k : Nat) (v : β) : List (Nat × β) → List (Nat × β)
  | [] => [(k, v)]
  | (k', v') :: rest =>
    if k < k' then (k, v) :: (k', v') :: rest
    else if k = k' then (k, v) :: rest
    else (k', v') :: assocInsert k v rest

/-- List nothing for `k`. -/
def assocErase {β : Type} (k : Nat) : List (Nat × β) → List (Nat × β)
  | [] => []
  | (k', v') :: rest => if k = k' then assocErase k rest else (k', v') :: assocErase k rest

/-! ### Memory (R13, R50, R53) -/

/-- `M[a]` (R50); an unlisted address reads as 0 (R53). -/
def Memory.read (m : Memory) (a : Nat) : Byte := (assocFind a m).getD unlistedByte

/-- `M[a] <- v`, keeping the canonical form (R13 `MemWrite`). -/
def Memory.write (m : Memory) (a : Nat) (v : Byte) : Memory :=
  if v = unlistedByte then assocErase a m else assocInsert a v m

/-- The memory that holds `bytes` from address `a` up and 0 elsewhere (R230). -/
def Memory.ofBytes : Nat → List Byte → Memory
  | _, [] => []
  | a, v :: rest => if v = unlistedByte then ofBytes (a + 1) rest else (a, v) :: ofBytes (a + 1) rest

/-- Store `bytes` from address `a` up; bytes past the top of memory are dropped. -/
def Memory.writeBytes (m : Memory) : Nat → List Byte → Memory
  | _, [] => m
  | a, v :: rest =>
    if a < Config.memorySize then Memory.writeBytes (m.write a v) (a + 1) rest else m

/-- The bytes at `a, a + 1, …`, at most `n`, up to the top of memory: what a fetch at `a` can see (R58). -/
def Memory.bytesFrom (m : Memory) : Nat → Nat → List Byte
  | _, 0 => []
  | a, n + 1 => if a < Config.memorySize then m.read a :: Memory.bytesFrom m (a + 1) n else []

/-! ### The framebuffer and the display (R173, R180, R181) -/

/-- The colour of the pixel with index `k`. -/
def Pixels.color (initial : Nat → Argb) (p : Pixels) (k : Nat) : Argb := (assocFind k p).getD (initial k)

/-- Give the pixel with index `k` a colour, keeping the canonical form. -/
def Pixels.put (initial : Nat → Argb) (k : Nat) (c : Argb) (p : Pixels) : Pixels :=
  if c = initial k then assocErase k p else assocInsert k c p

/-- The colour at `(x, y)`; `none` outside the picture. -/
def Pixels.read (initial : Nat → Argb) (p : Pixels) (x y : Nat) : Option Argb :=
  if x < Config.screenWidth ∧ y < Config.screenHeight then some (p.color initial (Config.screenWidth * y + x)) else none

/-- The framebuffer's colour at `(x, y)`; `none` outside it. -/
def Framebuffer.read (fb : Framebuffer) (x y : Nat) : Option Argb := Pixels.read Config.initialPixel fb x y

/-- The colour the display shows at `(x, y)` (R173, R181): the framebuffer's at the last `REFRESH`; before the first, what HOST_INIT
made it show, which is free (D13; notes/assumptions/5.md); `none` outside the display. -/
def HostContext.shown (h : HostContext) (x y : Nat) : Option Argb :=
  match h.refreshed with
  | some fb => fb.read x y
  | none => Pixels.read Config.initialDisplay [] x y

/-- Set one pixel; a pixel outside the framebuffer is silently clipped (R181). -/
def Framebuffer.set (fb : Framebuffer) (x y : Nat) (c : Argb) : Framebuffer :=
  if x < Config.screenWidth ∧ y < Config.screenHeight then
    Pixels.put Config.initialPixel (Config.screenWidth * y + x) c fb
  else fb

/-- Set each pixel of a list to its colour; for a pixel listed twice the earlier entry stands. -/
def Framebuffer.paint (fb : Framebuffer) : List ((Nat × Nat) × Argb) → Framebuffer
  | [] => fb
  | ((x, y), c) :: rest => (Framebuffer.paint fb rest).set x y c

/-- The opaque grey of level `c`: `0xFF000000 | (c << 16) | (c << 8) | c` (R180). -/
def grey (c : Byte) : Argb := 0xFF#8 ++ c ++ c ++ c

/-! ### Updates of the state -/

/-- `PC <- n`. -/
def State.withPc (s : State) (n : Nat) : State := { s with pc := n }

/-- `SP <- a`. -/
def State.withSp (s : State) (a : Addr) : State := { s with sp := a }

/-- `MemWrite(a, 1, v)` (R13): never faults. -/
def State.withByte (s : State) (a : Addr) (v : Byte) : State := { s with mem := s.mem.write a.toNat v }

/-- The host context replaced. -/
def State.withHost (s : State) (h : HostContext) : State := { s with host := h }

/-- One free value used up. -/
def State.drawFree (s : State) : State := { s with free := s.free + 1 }

/-- `MemRead(a, 1)` at a 16-bit address (R13): never faults. -/
def State.byteAt (s : State) (a : Addr) : Byte := s.mem.read a.toNat

/-! ### Faults and stops -/

/-- The state after `raise E` (R15): the fault is recorded, the block stops, everything else stays (R203). -/
def raise (e : ErrorSlot) (s : State) : State := { s with error := e, running := false }

/-- `Halt()`, the clean stop (R15, R160). -/
def halt (s : State) : State := { s with error := .halt, running := false }

/-! ### The operand stack (R25 to R29) -/

/-- The number of bytes on the stack (R26). -/
def State.depth (s : State) : Nat := 0xFFFF - s.sp.toNat

/-- The state after a successful push of `v` (R27): `SP` goes down by one, then `v` is written at the new `SP`. -/
def State.pushed (s : State) (v : Byte) : State := (s.withSp (s.sp - 1)).withByte (s.sp - 1) v

/-- The state after a successful pop (R28): `SP` goes up by one, the byte stays in memory. -/
def State.popped (s : State) : State := s.withSp (s.sp + 1)

/-- `Push(v)` (R27), then the rest of the instruction. -/
def pushThen (v : Byte) (s : State) (rest : State → Result) : Result :=
  if s.sp = 0x0000#16 then .next (raise .stackOverflow s) else rest (s.pushed v)

/-- `Push(v)` as the last line of an instruction. -/
def push (v : Byte) (s : State) : Result := pushThen v s .next

/-- `v <- Pop()` (R28), then the rest of the instruction. -/
def pop (s : State) (rest : Byte → State → Result) : Result :=
  if s.sp = 0xFFFF#16 then .next (raise .stackUnderflow s) else rest (s.byteAt s.sp) s.popped

/-! ### The fetch primitives (R73, R74) -/

/-- `v <- FetchByte()` (R73), then the rest. -/
def fetchByte (s : State) (rest : Byte → State → Result) : Result :=
  if 0xFFFF < s.pc then .next (raise .invalidAddress s) else rest (s.mem.read s.pc) (s.withPc (s.pc + 1))

/-- `v <- PeekImm16()` (R74), then the rest: one access, checked whole, low byte at the lower address (R13, R54). -/
def peekImm16 (s : State) (rest : Addr → State → Result) : Result :=
  if 0xFFFF < s.pc + 1 then .next (raise .invalidAddress s)
  else rest (addrOf (s.mem.read (s.pc + 1)) (s.mem.read s.pc)) s

/-- `v <- FetchImm16()` (R74), then the rest. -/
def fetchImm16 (s : State) (rest : Addr → State → Result) : Result :=
  peekImm16 s fun v s => rest v (s.withPc (s.pc + 2))

end Sys2Proof.Machine
end

