-- ==== Sys2Proof/Machine/Operands.lean ====
section
/-! DEFINITION. The ALU functions (spec/41_arith_logic.md): exact arithmetic on naturals, then `mod 256` (R11, R123), and the
shapes an ALU instruction takes its operands in (R110): `b` is popped first, then `a`. -/

namespace Sys2Proof.Machine

/-- `(a + b) mod 256` (R111). -/
def aluAdd (a b : Byte) : Byte := BitVec.ofNat 8 ((a.toNat + b.toNat) % 256)

/-- `(a + 256 - b) mod 256` (R112). -/
def aluSub (a b : Byte) : Byte := BitVec.ofNat 8 ((a.toNat + 256 - b.toNat) % 256)

/-- `(a * b) mod 256` (R113). -/
def aluMul (a b : Byte) : Byte := BitVec.ofNat 8 (a.toNat * b.toNat % 256)

/-- `a / b`, unsigned floor division (R114); used for `b ≠ 0` only. -/
def aluDiv (a b : Byte) : Byte := BitVec.ofNat 8 (a.toNat / b.toNat)

/-- `a % b`, unsigned remainder (R115); used for `b ≠ 0` only. -/
def aluMod (a b : Byte) : Byte := BitVec.ofNat 8 (a.toNat % b.toNat)

/-- `(256 - a) mod 256` (R116). -/
def aluNeg (a : Byte) : Byte := BitVec.ofNat 8 ((256 - a.toNat) % 256)

/-- `a & b` (R117). -/
def aluAnd (a b : Byte) : Byte := BitVec.ofNat 8 (a.toNat &&& b.toNat)

/-- `a | b` (R118). -/
def aluOr (a b : Byte) : Byte := BitVec.ofNat 8 (a.toNat ||| b.toNat)

/-- `a ^ b` (R119). -/
def aluXor (a b : Byte) : Byte := BitVec.ofNat 8 (a.toNat ^^^ b.toNat)

/-- `255 - a` (R120). -/
def aluNot (a : Byte) : Byte := BitVec.ofNat 8 (255 - a.toNat)

/-- `a` shifted left by `b`: 0 for a count of 8 or more, else `(a << b) mod 256` (R121). -/
def aluShl (a b : Byte) : Byte :=
  if 8 ≤ b.toNat then 0#8 else BitVec.ofNat 8 ((a.toNat <<< b.toNat) % 256)

/-- `a` shifted right by `b`, zero fill: 0 for a count of 8 or more, else `a >> b` (R122). -/
def aluShr (a b : Byte) : Byte :=
  if 8 ≤ b.toNat then 0#8 else BitVec.ofNat 8 (a.toNat >>> b.toNat)

/-- Pop `b`, then `a` (R110, R114), then the rest of the instruction with `a` and `b`. -/
def popTwo (s : State) (rest : Byte → Byte → State → Result) : Result :=
  pop s fun b s => pop s fun a s => rest a b s

/-- `Binary(f)` (R110). -/
def binary (f : Byte → Byte → Byte) (s : State) : Result :=
  popTwo s fun a b s => push (f a b) s

/-- `Unary(f)` (R110). -/
def unary (f : Byte → Byte) (s : State) : Result :=
  pop s fun a s => push (f a) s

/-- The shape of `DIV` and `MOD` (R114, R115): the divisor is tested after both pops. -/
def divide (f : Byte → Byte → Byte) (s : State) : Result :=
  popTwo s fun a b s => if b = 0#8 then .next (raise .divisionByZero s) else push (f a b) s

/-- Pop an address, low byte first, then high byte (R142, R143), then the rest of the instruction. -/
def popAddr (s : State) (rest : Addr → State → Result) : Result :=
  pop s fun lo s => pop s fun hi s => rest (addrOf hi lo) s

end Sys2Proof.Machine
end

