-- ==== Sys2Proof/Machine/Flags.lean ====
section
/-! DEFINITION. Comparison results. The block has no status flags or condition codes (spec/10_state.md R21): a comparison
pushes the byte 1 or 0 (spec/42_compare.md R130), and that byte is all the flag there is. -/

namespace Sys2Proof.Machine

/-- 1 if the relation holds, 0 if not (R130). -/
def truthByte (holds : Bool) : Byte := if holds then 1#8 else 0#8

/-- `a = b` (R131). -/
def relEq (a b : Byte) : Bool := decide (a.toNat = b.toNat)

/-- `a ≠ b` (R132). -/
def relNeq (a b : Byte) : Bool := decide (a.toNat ≠ b.toNat)

/-- `a > b`, unsigned (R133). -/
def relGt (a b : Byte) : Bool := decide (a.toNat > b.toNat)

/-- `a < b`, unsigned (R134). -/
def relLt (a b : Byte) : Bool := decide (a.toNat < b.toNat)

/-- `a ≥ b`, unsigned (R135). -/
def relGte (a b : Byte) : Bool := decide (a.toNat ≥ b.toNat)

/-- `a ≤ b`, unsigned (R136). -/
def relLte (a b : Byte) : Bool := decide (a.toNat ≤ b.toNat)

/-- `Compare(rel)` (R130): pop `b`, then `a`, push the truth of `rel a b`. -/
def compare (rel : Byte → Byte → Bool) (s : State) : Result :=
  popTwo s fun a b s => push (truthByte (rel a b)) s

end Sys2Proof.Machine
end

