-- ==== Sys2Proof/Machine/Arith.lean ====
section
/-! DEFINITION. The arithmetic and logic instructions (spec/41_arith_logic.md). `PC` is already past the instruction, except in `JMP` (spec/10_state.md R24). -/

namespace Sys2Proof.Machine

/-- `ADD` (R111). -/
def execAdd (s : State) : Result := binary aluAdd s

/-- `SUB` (R112). -/
def execSub (s : State) : Result := binary aluSub s

/-- `MUL` (R113). -/
def execMul (s : State) : Result := binary aluMul s

/-- `DIV` (R114): the divisor is the top. -/
def execDiv (s : State) : Result := divide aluDiv s

/-- `MOD` (R115): the divisor is the top. -/
def execMod (s : State) : Result := divide aluMod s

/-- `NEG` (R116). -/
def execNeg (s : State) : Result := unary aluNeg s

/-- `AND` (R117). -/
def execAnd (s : State) : Result := binary aluAnd s

/-- `OR` (R118). -/
def execOr (s : State) : Result := binary aluOr s

/-- `XOR` (R119). -/
def execXor (s : State) : Result := binary aluXor s

/-- `NOT` (R120). -/
def execNot (s : State) : Result := unary aluNot s

/-- `SHL` (R121): the count is the top. -/
def execShl (s : State) : Result := binary aluShl s

/-- `SHR` (R122): the count is the top. -/
def execShr (s : State) : Result := binary aluShr s

end Sys2Proof.Machine
end

