-- ==== Sys2Proof/Machine/Compare.lean ====
section
/-! DEFINITION. The comparison instructions (spec/42_compare.md). `PC` is already past the instruction, except in `JMP` (spec/10_state.md R24). -/

namespace Sys2Proof.Machine

/-- `EQ` (R131). -/
def execEq (s : State) : Result := compare relEq s

/-- `NEQ` (R132). -/
def execNeq (s : State) : Result := compare relNeq s

/-- `GT` (R133). -/
def execGt (s : State) : Result := compare relGt s

/-- `LT` (R134). -/
def execLt (s : State) : Result := compare relLt s

/-- `GTE` (R135). -/
def execGte (s : State) : Result := compare relGte s

/-- `LTE` (R136). -/
def execLte (s : State) : Result := compare relLte s

end Sys2Proof.Machine
end

