-- ==== Sys2Proof/Machine/Control.lean ====
section
/-! DEFINITION. The control transfer instructions (spec/44_control.md). `PC` is already past the instruction, except in `JMP` (spec/10_state.md R24). -/

namespace Sys2Proof.Machine

/-- `JMP addr` (R150). -/
def execJmp (addr : Addr) (s : State) : Result := .next (s.withPc addr.toNat)

/-- `JZ addr` (R151): the popped byte is consumed whether or not the branch is taken. -/
def execJz (addr : Addr) (s : State) : Result :=
  pop s fun v s => .next (if v = 0#8 then s.withPc addr.toNat else s)

/-- `JNZ addr` (R152). -/
def execJnz (addr : Addr) (s : State) : Result :=
  pop s fun v s => .next (if v ≠ 0#8 then s.withPc addr.toNat else s)

/-- `CALL addr` (R153): `PC` is the return address; its low byte is pushed first. -/
def execCall (addr : Addr) (s : State) : Result :=
  pushThen (lowByte s.pc) s fun s => pushThen (highByte s.pc) s fun s => .next (s.withPc addr.toNat)

/-- `RET` (R154): the first pop is the high byte. -/
def execRet (s : State) : Result :=
  pop s fun hi s => pop s fun lo s => .next (s.withPc (addrOf hi lo).toNat)

end Sys2Proof.Machine
end

