-- ==== Sys2Proof/Machine/LoadStore.lean ====
section
/-! DEFINITION. The load and store instructions (spec/43_load_store.md). `PC` is already past the instruction, except in `JMP` (spec/10_state.md R24). -/

namespace Sys2Proof.Machine

/-- `LOAD addr` (R140). -/
def execLoad (addr : Addr) (s : State) : Result := push (s.byteAt addr) s

/-- `STORE addr` (R141): the write follows the pop. -/
def execStore (addr : Addr) (s : State) : Result := pop s fun v s => .next (s.withByte addr v)

/-- `LOAD_IND` (R142): the first pop is the low byte of the address. -/
def execLoadInd (s : State) : Result := popAddr s fun addr s => push (s.byteAt addr) s

/-- `STORE_IND` (R143): the address, low byte first, then the value. -/
def execStoreInd (s : State) : Result :=
  popAddr s fun addr s => pop s fun v s => .next (s.withByte addr v)

end Sys2Proof.Machine
end

