-- ==== Sys2Proof/Machine/Stack.lean ====
section
/-! DEFINITION. The stack instructions (spec/40_stack.md). `PC` is already past the instruction, except in `JMP` (spec/10_state.md R24). -/

namespace Sys2Proof.Machine

/-- `NOP` (R100): nothing; `PC` is already past the opcode. -/
def execNop (s : State) : Result := .next s

/-- `PUSH imm8` (R101). -/
def execPush (imm8 : Byte) (s : State) : Result := push imm8 s

/-- `POP` (R102): the value is discarded. -/
def execPop (s : State) : Result := pop s fun _ s => .next s

/-- `DUP` (R103): test, read `M[SP]`, push. -/
def execDup (s : State) : Result :=
  if s.sp = 0xFFFF#16 then .next (raise .stackUnderflow s) else push (s.byteAt s.sp) s

/-- `SWAP` (R104): pop `b`, pop `a`, push `b`, push `a`. -/
def execSwap (s : State) : Result :=
  popTwo s fun a b s => pushThen b s fun s => push a s

end Sys2Proof.Machine
end

