-- ==== Sys2Proof/Machine/HostPort.lean ====
section
/-! DEFINITION. The block's interfaces to its host and the host that keeps its contract: the pump and the wait query
(spec/10_state.md R46, R47), the host stack port (R48), and the operations of `IO` (spec/45_system_io.md R165 to R183). -/

namespace Sys2Proof.Machine

/-! ### The pump and the wait query -/

/-- The answer of a host with nothing to say: `continue`, no events. -/
def quietAnswer : PumpAnswer where
  shutdown := false
  events := []

/-- Latch one input event into the host context (R182). -/
def latchEvent (h : HostContext) : InputEvent → HostContext
  | .key b => { h with key := b, keyAvailable := true }
  | .mouse x y mask => { h with mouseX := x, mouseY := y, mouseMask := mask, mouseEvent := true }

/-- Latch the events of one pump, in order (R182). -/
def latchEvents (h : HostContext) : List InputEvent → HostContext
  | [] => h
  | e :: rest => latchEvents (latchEvent h e) rest

/-- The host's answer to the pump of this iteration (R46): the next of the schedule, or the quiet answer after its end. -/
def pumpAnswer (s : State) : PumpAnswer := s.schedule.headD quietAnswer

/-- The state after `HOST_PUMP` (R46): the events are latched (R182), for the instruction of this iteration to see (R40, R41;
against R240, notes/assumptions/10.md), the answer is used up, the block is unchanged. -/
def pumped (s : State) : State :=
  { s with host := latchEvents s.host (pumpAnswer s).events, schedule := s.schedule.tail }

/-- The answer to `HOST_WAIT` (R47): waiting is set and key-available is clear. -/
def hostWait (s : State) : Bool := s.host.waiting && !s.host.keyAvailable

/-! ### The host stack port (R48) -/

/-- `HPop()`: 0 and no change after a fault; an underflow is recorded and gives 0. -/
def hPop (s : State) : Byte × State :=
  if s.error ≠ .ok then (0#8, s)
  else if s.sp = 0xFFFF#16 then (0#8, raise .stackUnderflow s)
  else (s.byteAt s.sp, s.popped)

/-- `HPush(v)`: no change after a fault; an overflow is recorded. -/
def hPush (v : Byte) (s : State) : State :=
  if s.error ≠ .ok then s
  else if s.sp = 0x0000#16 then raise .stackOverflow s
  else s.pushed v

/-- `HRewind()`: `PC` becomes the address of the `IO` opcode. -/
def hRewind (s : State) : State := s.withPc (s.pc - 2)

/-- A request of the host on the stack port. -/
inductive PortRequest
  /-- `HPop()`. -/
  | pop
  /-- `HPush(v)`. -/
  | push (v : Byte)
  /-- `HRewind()`. -/
  | rewind
deriving DecidableEq, Repr

/-- The block after one request. -/
def portStep (s : State) : PortRequest → State
  | .pop => (hPop s).2
  | .push v => hPush v s
  | .rewind => hRewind s

/-- The block after a sequence of requests, answered one at a time in order (R48, R59). -/
def portRun (s : State) : List PortRequest → State
  | [] => s
  | r :: rest => portRun (portStep s r) rest

/-! ### The host's operations -/

/-- The status a `HOST_IO` transaction returns (R48). -/
inductive HostStatus
  /-- `OK`. -/
  | ok
  /-- `NOT_OK`. -/
  | notOk
deriving DecidableEq, Repr

/-- The outcome of a transaction: the status and the state after it. -/
abbrev Transaction := HostStatus × State

/-- Write bytes to standard output and flush it (R168). After a port fault what is written is free (R162, D13). -/
def emit (bytes : List Byte) (s : State) : State :=
  if s.error ≠ .ok then
    (s.withHost { s.host with stdout := s.host.stdout ++ Config.stdoutAfterFault s.free }).drawFree
  else s.withHost { s.host with stdout := s.host.stdout ++ bytes }

/-- Draw pixels, clipped (R181). After a port fault what is drawn is free (R162, D13). -/
def draw (pixels : List ((Nat × Nat) × Argb)) (s : State) : State :=
  if s.error ≠ .ok then
    (s.withHost { s.host with framebuffer := s.host.framebuffer.paint (Config.drawnAfterFault s.free) }).drawFree
  else s.withHost { s.host with framebuffer := s.host.framebuffer.paint pixels }

/-- `EXIT` (R167): no stack request; `NOT_OK`. -/
def hostExit (s : State) : Transaction := (.notOk, s)

/-- `PRINT_CHAR` (R168). -/
def hostPrintChar (s : State) : Transaction :=
  let c := hPop s
  (.ok, emit [c.1] c.2)

/-- `READ_CHAR` (R169): the blocking-read protocol. -/
def hostReadChar (s : State) : Transaction :=
  if s.host.keyAvailable then
    let t := hPush s.host.key s
    (.ok, t.withHost { t.host with keyAvailable := false, waiting := false })
  else (.ok, hRewind (s.withHost { s.host with waiting := true }))

/-- `DRAW_PIXEL` (R170). -/
def hostDrawPixel (s : State) : Transaction :=
  let color := hPop s
  let y := hPop color.2
  let x := hPop y.2
  (.ok, draw [((x.1.toNat, y.1.toNat), grey color.1)] x.2)

/-- `DRAW_LINE` (R171); the pixel set of the line is the parameter HOST_LINE (D13). -/
def hostDrawLine (s : State) : Transaction :=
  let color := hPop s
  let y2 := hPop color.2
  let x2 := hPop y2.2
  let y1 := hPop x2.2
  let x1 := hPop y1.2
  (.ok, draw ((Config.linePixels x1.1 y1.1 x2.1 y2.1).map (·, grey color.1)) x1.2)

/-- The pixels of the rectangle `[x, x+w) × [y, y+h)` (R172), row by row. -/
def rectPixels (x y w h : Byte) : List (Nat × Nat) :=
  (List.range h.toNat).flatMap fun j => (List.range w.toNat).map fun i => (x.toNat + i, y.toNat + j)

/-- `FILL_RECT` (R172). -/
def hostFillRect (s : State) : Transaction :=
  let color := hPop s
  let h := hPop color.2
  let w := hPop h.2
  let y := hPop w.2
  let x := hPop y.2
  (.ok, draw ((rectPixels x.1 y.1 w.1 h.1).map (·, grey color.1)) x.2)

/-- `REFRESH` (R173): the display shows the framebuffer. -/
def hostRefresh (s : State) : Transaction :=
  (.ok, s.withHost { s.host with refreshed := some s.host.framebuffer })

/-- `POLL_KEY` (R174). -/
def hostPollKey (s : State) : Transaction := (.ok, hPush (truthByte s.host.keyAvailable) s)

/-- `GET_KEY` (R175). -/
def hostGetKey (s : State) : Transaction :=
  let t := hPush s.host.key s
  (.ok, t.withHost { t.host with keyAvailable := false })

/-- `POLL_MOUSE` (R176). -/
def hostPollMouse (s : State) : Transaction := (.ok, hPush (truthByte s.host.mouseEvent) s)

/-- Push a 16-bit host value, low byte first, so the high byte ends on top (R177, D12). -/
def hPushWord (m : BitVec 16) (s : State) : State := hPush (highByte m.toNat) (hPush (lowByte m.toNat) s)

/-- `GET_MOUSE_X` (R177). -/
def hostGetMouseX (s : State) : Transaction := (.ok, hPushWord s.host.mouseX s)

/-- `GET_MOUSE_Y` (R177). -/
def hostGetMouseY (s : State) : Transaction := (.ok, hPushWord s.host.mouseY s)

/-- `GET_MOUSE_B` (R178). -/
def hostGetMouseB (s : State) : Transaction :=
  let t := hPush s.host.mouseMask s
  (.ok, t.withHost { t.host with mouseEvent := false })

/-- An operation the host does not define (R179): no stack request; `NOT_OK`. -/
def hostUndefined (s : State) : Transaction := (.notOk, s)

/-- `HOST_IO(id)` (R48) of a host that keeps the contract: the operation table (R165, R166). -/
def hostIO (id : Byte) (s : State) : Transaction :=
  match id.toNat with
  | 0x00 => hostExit s
  | 0x01 => hostPrintChar s
  | 0x02 => hostReadChar s
  | 0x10 => hostDrawPixel s
  | 0x11 => hostDrawLine s
  | 0x12 => hostFillRect s
  | 0x13 => hostRefresh s
  | 0x20 => hostPollKey s
  | 0x21 => hostGetKey s
  | 0x22 => hostPollMouse s
  | 0x23 => hostGetMouseX s
  | 0x24 => hostGetMouseY s
  | 0x25 => hostGetMouseB s
  | _ => hostUndefined s

end Sys2Proof.Machine
end

