-- ==== Sys2Proof/Machine/System.lean ====
section
/-! DEFINITION. The system instructions (spec/45_system_io.md). `PC` is already past the instruction, except in `JMP` (spec/10_state.md R24). -/

namespace Sys2Proof.Machine

/-- `HALT` (R160). -/
def execHalt (s : State) : Result := .next (halt s)

/-- What the block makes of a finished transaction (R161, R162), whatever the host did in it: a stack fault recorded during the
transaction stands; else `NOT_OK` is `HALT` for `EXIT` and `HOST_IO` for every other id. -/
def ioResult (op8 : Byte) (r : Transaction) : Result :=
  if r.2.error ≠ .ok then .next r.2
  else match r.1 with
    | .ok => .next r.2
    | .notOk => if op8 = 0x00#8 then .next (halt r.2) else .next (raise .hostIo r.2)

/-- `IO op8` (R161): the host's transaction, then its result. -/
def execIo (op8 : Byte) (s : State) : Result := ioResult op8 (hostIO op8 s)

end Sys2Proof.Machine
end

