-- ==== Sys2Proof/Machine/Dispatch.lean ====
section
/-! DEFINITION. The dispatch (spec/30_encoding.md R75): one arm for each constructor of `Instr`. -/

namespace Sys2Proof.Machine

/-- The instruction's effect, with its operands fetched and `PC` as the fetch left it (R24, R75). -/
def exec (i : Instr) (s : State) : Host.Outcome State Fault Refusal :=
  match i with
  | .nop => Sys2Proof.Machine.execNop s
  | .halt => Sys2Proof.Machine.execHalt s
  | .push imm8 => Sys2Proof.Machine.execPush imm8 s
  | .pop => Sys2Proof.Machine.execPop s
  | .dup => Sys2Proof.Machine.execDup s
  | .swap => Sys2Proof.Machine.execSwap s
  | .add => Sys2Proof.Machine.execAdd s
  | .sub => Sys2Proof.Machine.execSub s
  | .mul => Sys2Proof.Machine.execMul s
  | .div => Sys2Proof.Machine.execDiv s
  | .mod => Sys2Proof.Machine.execMod s
  | .neg => Sys2Proof.Machine.execNeg s
  | .and => Sys2Proof.Machine.execAnd s
  | .or => Sys2Proof.Machine.execOr s
  | .xor => Sys2Proof.Machine.execXor s
  | .not => Sys2Proof.Machine.execNot s
  | .shl => Sys2Proof.Machine.execShl s
  | .shr => Sys2Proof.Machine.execShr s
  | .eq => Sys2Proof.Machine.execEq s
  | .neq => Sys2Proof.Machine.execNeq s
  | .gt => Sys2Proof.Machine.execGt s
  | .lt => Sys2Proof.Machine.execLt s
  | .gte => Sys2Proof.Machine.execGte s
  | .lte => Sys2Proof.Machine.execLte s
  | .load addr => Sys2Proof.Machine.execLoad addr s
  | .store addr => Sys2Proof.Machine.execStore addr s
  | .loadInd => Sys2Proof.Machine.execLoadInd s
  | .storeInd => Sys2Proof.Machine.execStoreInd s
  | .jmp addr => Sys2Proof.Machine.execJmp addr s
  | .jz addr => Sys2Proof.Machine.execJz addr s
  | .jnz addr => Sys2Proof.Machine.execJnz addr s
  | .call addr => Sys2Proof.Machine.execCall addr s
  | .ret => Sys2Proof.Machine.execRet s
  | .io op8 => Sys2Proof.Machine.execIo op8 s

end Sys2Proof.Machine
end

