-- ==== Sys2Proof/Machine/Fetch.lean ====
section
/-! DEFINITION. Initialisation and fetch: `INIT` (spec/70_reset_and_hazards.md R230) and the fetch of an instruction by the spec's
primitives (spec/30_encoding.md R73 to R75), and the placing of an instruction where the next step fetches it. -/

namespace Sys2Proof.Machine

/-- `INIT(image)` (R230, R231): refuses an image longer than memory (D8), else sets every piece of block state. The host's
state is not touched (R232), nor are the model's own fields (notes/assumptions/11.md). -/
def State.init (image : List Byte) (s : State) : Result :=
  if Config.memorySize < image.length then .refused (.imageTooLong image.length)
  else .next
    { s with
      mem := Memory.ofBytes 0 image
      pc := 0
      sp := 0xFFFF#16
      bp := 0xFFFF#16
      running := true
      error := .ok }

/-- Fetch the operand in its format, then run the instruction (R71, R74, R75); an illegal opcode raises `InvalidOpcode`. -/
def operandThen (f : OpFormat) (s : State) (run : Instr → State → Result) : Result :=
  match f with
  | .plain i => run i s
  | .imm8 mk => fetchByte s fun v s => run (mk v) s
  | .addr16 mk => fetchImm16 s fun addr s => run (mk addr) s
  | .peek16 mk => peekImm16 s fun addr s => run (mk addr) s
  | .illegal => .next (raise .invalidOpcode s)

/-- Fetch one instruction and hand it to `run` (R40 steps 3 to 5, R75): the opcode byte with `FetchByte`, which raises
`InvalidAddress` at `PC = 65536`, then the operand. -/
def fetchThen (s : State) (run : Instr → State → Result) : Result :=
  fetchByte s fun op s => operandThen (opcodeMap op) s run

/-- The schedule with the next pump quiet; nothing to do where no answer is pending. -/
def quietNext : List PumpAnswer → List PumpAnswer
  | [] => []
  | a :: rest => quietAnswer :: a :: rest

/-- The address the placed instruction goes to: `PC`, or 0 where three bytes from `PC` do not fit. -/
def placePc (pc : Nat) : Nat := if pc + 3 ≤ Config.memorySize then pc else 0

/-- `s` ready to fetch `bytes` as its next instruction: the bytes at `PC`, the block running, the pump quiet, no wait. -/
def State.placed (s : State) (bytes : List Byte) : State :=
  { s with
    mem := s.mem.writeBytes (placePc s.pc) bytes
    pc := placePc s.pc
    running := true
    host := { s.host with waiting := false }
    schedule := quietNext s.schedule }

end Sys2Proof.Machine
end

