-- ==== Sys2Proof/Machine/Iteration.lean ====
section
/-! DEFINITION. The iteration of the engine loop (spec/10_state.md R40, R41). -/

namespace Sys2Proof.Machine

/-- The source's `step` (R41): steps 3 to 5 of the iteration, one instruction. -/
def instructionStep (s : State) : Result := fetchThen s exec

/-- One iteration (R40): the pump, which may shut down (`error` unchanged, D7); the wait query; the instruction. A stopped block
takes no iteration: its state is final (R44; notes/assumptions/2.md). -/
def iteration (s : State) : Result :=
  if s.running then
    if (pumpAnswer s).shutdown then .next { pumped s with running := false }
    else if hostWait (pumped s) then .next (pumped s)
    else instructionStep (pumped s)
  else .next s

end Sys2Proof.Machine
end

