-- ==== Sys2Proof/Machine/Step.lean ====
section
/-! DEFINITION. The step of the machine, and the placing of an instruction word for it. -/

namespace Sys2Proof.Machine

/-- The architectural step (spec/00_scope.md R8, R17): one iteration of the engine loop (spec/10_state.md R40). -/
def step (s : State) : Host.Outcome State Fault Refusal := iteration s

/-- `s` with the instruction of the low `nbits` bits of `w` stored where `step` fetches its next instruction, so that the very
next step runs it (notes/assumptions/11.md). -/
def State.withFetchWord (s : State) (nbits w : Nat) : State := s.placed (tableBytes nbits w)

end Sys2Proof.Machine
end

