-- ==== Sys2Proof/Machine/Assembler.lean ====
section
/-! DEFINITION. The assembler (spec/30_encoding.md R85 to R91): source text to an image, in two passes. It is not hardware (R6);
it fixes the spelling of every instruction and the image format. What the spec leaves open is in notes/assumptions/15.md. -/

namespace Sys2Proof.Assembler

/-- Why an assembly fails (R86, R88, R90, R91). -/
inductive AsmError
  /-- A character that is not ASCII (R85). -/
  | notAscii
  /-- A label definition whose name is not a label name (R86). -/
  | badLabelName (name : List Char)
  /-- A label defined twice (R90). -/
  | duplicateLabel (name : List Char)
  /-- A label at position 65 536 (R86). -/
  | labelAtEnd (name : List Char)
  /-- An operand that is neither a number nor, in an address slot, a label name (R87, R88). -/
  | badOperand (text : List Char)
  /-- A number outside the range of its slot (R88). -/
  | outOfRange (n : Nat)
  /-- A label in a byte slot (R88). -/
  | labelInByteSlot (name : List Char)
  /-- An operand is missing (R88). -/
  | missingOperand (mnemonic : List Char)
  /-- There is an operand too many (R88). -/
  | extraOperand (mnemonic : List Char)
  /-- The output would exceed 65 536 bytes (R91). -/
  | outputTooLong
deriving DecidableEq, Repr

/-- One statement of the source after parsing. -/
inductive Item
  /-- A label definition (R86). -/
  | define (name : List Char)
  /-- An instruction with a numeric operand or none. -/
  | plain (i : Instr)
  /-- An instruction with opcode byte `op` and a label reference in its address slot (R88, R89). -/
  | labelled (op : Byte) (name : List Char)
  /-- An unknown mnemonic (R89). -/
  | unknown (mnemonic : List Char)
deriving DecidableEq, Repr

/-- What an assembly gives. -/
structure Output where
  /-- The image (R91). -/
  image : List Byte
  /-- The unknown mnemonics warned of, in order (R89). -/
  warnings : List (List Char)
  /-- The label references left unresolved, in order: reported, their placeholders kept (R90). -/
  unresolved : List (List Char)
deriving DecidableEq, Repr

/-- The result of an assembly. -/
abbrev AsmResult (α : Type) := Except AsmError α

/-! ### Characters and tokens (R85) -/

/-- White space inside a line. -/
def isBlank (c : Char) : Bool := c == ' ' || c == '\t' || c == '\r'

/-- An ASCII upper-case letter for a lower-case one (R87). -/
def upper (c : Char) : Char := if 97 ≤ c.toNat ∧ c.toNat ≤ 122 then Char.ofNat (c.toNat - 32) else c

/-- Cut a text at each character that `sep` holds of. -/
def splitOn (sep : Char → Bool) : List Char → List (List Char)
  | [] => [[]]
  | c :: cs =>
    match splitOn sep cs with
    | [] => [[c]]
    | w :: ws => if sep c then [] :: w :: ws else (c :: w) :: ws

/-- The tokens of a line, without its comment: `;` begins a comment to the end of the line (R85). DESIGN CHOICE
(notes/assumptions/23.md): white space alone ends a token, so `loop:NOP` is one token, an unknown mnemonic. -/
def tokens (line : List Char) : List (List Char) :=
  (splitOn isBlank (line.takeWhile (· != ';'))).filter (fun w => !w.isEmpty)

/-! ### Numbers (R87, R88) -/

/-- The value of a decimal digit. -/
def decimalDigit (c : Char) : Option Nat := if isDecimalDigit c then some (c.toNat - 48) else none

/-- The value of a hexadecimal digit, of either case. -/
def hexDigit (c : Char) : Option Nat :=
  if isDecimalDigit c then some (c.toNat - 48)
  else if 65 ≤ c.toNat ∧ c.toNat ≤ 70 then some (c.toNat - 55)
  else if 97 ≤ c.toNat ∧ c.toNat ≤ 102 then some (c.toNat - 87)
  else none

/-- The number a sequence of digits writes, after `acc`. -/
def digitsValue (digit : Char → Option Nat) (base : Nat) : Nat → List Char → Option Nat
  | acc, [] => some acc
  | acc, c :: cs =>
    match digit c with
    | some d => digitsValue digit base (acc * base + d) cs
    | none => none

/-- A numeric literal: `0x` and hexadecimal digits, or decimal digits (R87). -/
def parseNumber : List Char → Option Nat
  | [] => none
  | ['0', 'x'] => none
  | '0' :: 'x' :: cs => digitsValue hexDigit 16 0 cs
  | cs => digitsValue decimalDigit 10 0 cs

/-! ### Statements (R86 to R89) -/

/-- The mnemonics of R76 with their opcodes, and `SYS`, the legacy spelling of `IO` (R87). -/
def mnemonics : List (List Char × Byte) :=
  [("NOP".toList, 0x00#8), ("HALT".toList, 0x01#8), ("PUSH".toList, 0x02#8), ("POP".toList, 0x03#8),
   ("DUP".toList, 0x04#8), ("SWAP".toList, 0x05#8), ("ADD".toList, 0x06#8), ("SUB".toList, 0x07#8),
   ("MUL".toList, 0x08#8), ("DIV".toList, 0x09#8), ("MOD".toList, 0x0A#8), ("NEG".toList, 0x0B#8)]
  ++ [("AND".toList, 0x0C#8), ("OR".toList, 0x0D#8), ("XOR".toList, 0x0E#8), ("NOT".toList, 0x0F#8),
   ("SHL".toList, 0x10#8), ("SHR".toList, 0x11#8), ("EQ".toList, 0x12#8), ("NEQ".toList, 0x13#8),
   ("GT".toList, 0x14#8), ("LT".toList, 0x15#8), ("GTE".toList, 0x16#8), ("LTE".toList, 0x17#8)]
  ++ [("LOAD".toList, 0x18#8), ("STORE".toList, 0x19#8), ("LOAD_IND".toList, 0x1A#8), ("STORE_IND".toList, 0x1B#8),
   ("JMP".toList, 0x1C#8), ("JZ".toList, 0x1D#8), ("JNZ".toList, 0x1E#8), ("CALL".toList, 0x1F#8),
   ("RET".toList, 0x20#8), ("IO".toList, 0x21#8), ("SYS".toList, 0x21#8)]

/-- The opcode of a mnemonic, whatever its case (R87). -/
def mnemonicOpcode (m : List Char) : Option Byte := (mnemonics.find? (fun row => row.1 == m.map upper)).map Prod.snd

/-- A byte operand: a number `0..255` (R87, R88). -/
def byteOperand (mk : Byte → Instr) (t : List Char) : AsmResult Item :=
  if (t.head?.map isNameStart).getD false then .error (.labelInByteSlot t)
  else match parseNumber t with
    | none => .error (.badOperand t)
    | some n => if n < 256 then .ok (.plain (mk (BitVec.ofNat 8 n))) else .error (.outOfRange n)

/-- An address operand: a number `0..65535`, or a label reference, which begins with a letter or `_` (R87, R88). -/
def addrOperand (op : Byte) (mk : Addr → Instr) (t : List Char) : AsmResult Item :=
  if (t.head?.map isNameStart).getD false then
    if labelWellFormed t then .ok (.labelled op t) else .error (.badOperand t)
  else match parseNumber t with
    | none => .error (.badOperand t)
    | some n => if n < 65536 then .ok (.plain (mk (BitVec.ofNat 16 n))) else .error (.outOfRange n)

/-- An instruction statement: the mnemonic, then its operands (R87). -/
def parseInstr (m : List Char) (operands : List (List Char)) : AsmResult Item :=
  match mnemonicOpcode m with
  | none => .ok (.unknown m)
  | some op =>
    match opcodeMap op, operands with
    | .plain i, [] => .ok (.plain i)
    | .plain _, _ :: _ => .error (.extraOperand m)
    | .imm8 mk, [t] => byteOperand mk t
    | .addr16 mk, [t] => addrOperand op mk t
    | .peek16 mk, [t] => addrOperand op mk t
    | .illegal, _ => .ok (.unknown m)
    | _, [] => .error (.missingOperand m)
    | _, _ :: _ :: _ => .error (.extraOperand m)

/-- The statements of one line: a leading token ending in `:` defines a label, the rest is an instruction (R86). -/
def parseLine (line : List Char) : AsmResult (List Item) :=
  match tokens line with
  | [] => .ok []
  | t :: rest =>
    if t.getLast? = some ':' then
      if labelWellFormed t.dropLast then
        match rest with
        | [] => .ok [.define t.dropLast]
        | m :: operands => (parseInstr m operands).map fun i => [.define t.dropLast, i]
      else .error (.badLabelName t.dropLast)
    else (parseInstr t rest).map fun i => [i]

/-- The statements of the lines, in order (R85). -/
def parseLines : List (List Char) → AsmResult (List Item)
  | [] => .ok []
  | line :: rest =>
    match parseLine line with
    | .error e => .error e
    | .ok items => (parseLines rest).map (items ++ ·)

/-! ### The two passes (R89, R90) -/

/-- The assembler's state in pass one: output so far, labels with their positions, patch requests, warnings. -/
structure PassState where
  /-- The bytes emitted so far; their number is the current output position (R86). -/
  out : List Byte
  /-- The labels defined so far. -/
  labels : List (List Char × Nat)
  /-- The patch requests `(name, position of the low byte)`, in order (R89). -/
  patches : List (List Char × Nat)
  /-- The unknown mnemonics, in order. -/
  warnings : List (List Char)
deriving DecidableEq, Repr

/-- The state before the first line. -/
def PassState.start : PassState where
  out := []
  labels := []
  patches := []
  warnings := []

/-- The position of a label, if it is defined. DESIGN CHOICE (notes/assumptions/22.md): label names are compared exactly, letter
case included. -/
def labelPosition (name : List Char) (labels : List (List Char × Nat)) : Option Nat :=
  (labels.find? (fun row => row.1 == name)).map Prod.snd

/-- Emit bytes; the output holds at most 65 536 (R91). -/
def emitBytes (p : PassState) (bytes : List Byte) : AsmResult PassState :=
  if p.out.length + bytes.length ≤ Config.memorySize then .ok { p with out := p.out ++ bytes }
  else .error .outputTooLong

/-- Pass one on one statement (R86, R89). -/
def passItem (p : PassState) : Item → AsmResult PassState
  | .define name =>
    if (labelPosition name p.labels).isSome then .error (.duplicateLabel name)
    else if p.out.length < Config.memorySize then .ok { p with labels := p.labels ++ [(name, p.out.length)] }
    else .error (.labelAtEnd name)
  | .plain i => emitBytes p (encode i)
  | .labelled op name =>
    emitBytes { p with patches := p.patches ++ [(name, p.out.length + 1)] } [op, 0#8, 0#8]
  | .unknown m => .ok { p with warnings := p.warnings ++ [m] }

/-- Pass one. -/
def passOne (p : PassState) : List Item → AsmResult PassState
  | [] => .ok p
  | item :: rest =>
    match passItem p item with
    | .error e => .error e
    | .ok q => passOne q rest

/-- Pass two on one patch request: overwrite the placeholder, low byte first, or report the label (R90). -/
def applyPatch (labels : List (List Char × Nat)) (o : Output) (patch : List Char × Nat) : Output :=
  match labelPosition patch.1 labels with
  | some n => { o with image := (o.image.set patch.2 (lowByte n)).set (patch.2 + 1) (highByte n) }
  | none => { o with unresolved := o.unresolved ++ [patch.1] }

/-- Pass two (R90). -/
def passTwo (p : PassState) : Output :=
  p.patches.foldl (applyPatch p.labels)
    { image := p.out, warnings := p.warnings, unresolved := [] }

/-- Both passes over parsed statements. -/
def assembleItems (items : List Item) : AsmResult Output := (passOne PassState.start items).map passTwo

/-- The assembler: ASCII source text to an image (R85 to R91). -/
def assemble (source : List Char) : AsmResult Output :=
  if source.all (fun c => decide (c.toNat < 128)) then
    match parseLines (splitOn (· == '\n') source) with
    | .error e => .error e
    | .ok items => assembleItems items
  else .error .notAscii

end Sys2Proof.Assembler
end

