-- ==== Sys2Proof/Safety.lean ====
section
/-! DEFINITION. What a good state and a safe run are, in the terms the claims use. -/

namespace Sys2Proof.Machine

/-- The facts that hold in every state a run reaches: they hold after `INIT`, and every step keeps them. -/
structure State.Inv (s : State) : Prop where
  /-- Memory keeps its canonical form. -/
  memWf : s.mem.wf
  /-- `PC` holds `0..65536` (R22). -/
  pcInRange : s.pc ≤ Config.memorySize
  /-- `BP` is `0xFFFF` in every reachable state (R30). -/
  bpReserved : s.bp = 0xFFFF#16
  /-- `error ≠ OK` implies `running = false` (R33). -/
  errorStops : s.error ≠ .ok → s.running = false
  /-- The framebuffer keeps its canonical form, inside 320 × 240 (R181). -/
  framebufferWf : s.host.framebuffer.wf
  /-- So does what the display shows. -/
  displayWf : ∀ fb, s.host.refreshed = some fb → fb.wf

/-- A stop by one of the six faults (R17, R200). -/
def State.faulted (s : State) : Bool := decide (s.error ≠ .ok) && decide (s.error ≠ .halt)

/-- `s` runs `k` steps to `t`. -/
def runsTo (s : State) (k : Nat) (t : State) : Prop := Host.Core.run
  { State := State, Fault := Fault, Refusal := Refusal, step := step, reset := State.reset } k s = .next t

/-- A safe run: no state of the run has stopped by a fault. -/
def SafeRun (s : State) : Prop := ∀ k t, runsTo s k t → t.faulted = false

/-- Two states with the same block (R20). -/
def SameBlock (s t : State) : Prop :=
  s.mem = t.mem ∧ s.pc = t.pc ∧ s.sp = t.sp ∧ s.bp = t.bp ∧ s.running = t.running ∧ s.error = t.error

/-- Two states that agree on all the block can ever observe: they may differ in the host's outputs (standard output,
framebuffer, display) and in the index of the next free value. -/
def SameButOutputs (s t : State) : Prop :=
  SameBlock s t ∧ s.schedule = t.schedule ∧
  s.host.key = t.host.key ∧ s.host.keyAvailable = t.host.keyAvailable ∧ s.host.waiting = t.host.waiting ∧
  s.host.mouseX = t.host.mouseX ∧ s.host.mouseY = t.host.mouseY ∧ s.host.mouseMask = t.host.mouseMask ∧
  s.host.mouseEvent = t.host.mouseEvent

end Sys2Proof.Machine
end

