-- ==== Sys2Proof/Certificates/Slice0/Obligations.lean ====
section
/-! DEFINITION. The statements for the provers, from the numbered rules of spec/. `Sys2Proof.Spec` holds the words they are
written in: results are naturals with an explicit `mod`, as the rules give them, and a next state is written out field by field,
so that it also says what stays. -/

namespace Sys2Proof.Spec

open Sys2Proof.Machine

/-- The byte `k` places below the top of the stack: `M[SP + k]` (R26). -/
def stackByte (s : State) (k : Nat) : Byte := s.mem.read (s.sp.toNat + k)

/-- The state after a stop with `e` and nothing else changed (R15). -/
def stopped (s : State) (e : ErrorSlot) : State := { s with error := e, running := false }

/-- The instruction stops the block with `e` (R15). -/
def StopsWith (i : Instr) (s : State) (e : ErrorSlot) : Prop :=
  ∃ t, exec i s = .next t ∧ t.error = e ∧ t.running = false

/-- The result of an instruction that pops `b`, then `a`, and pushes `f a b`: it is written at `SP + 1`, which is the new `SP`
(R110, R130). -/
def TwoToOneResult (i : Instr) (f : Nat → Nat → Nat) (s : State) : Prop :=
  exec i s = .next { s with
    sp := s.sp + 1
    mem := s.mem.write (s.sp.toNat + 1) (BitVec.ofNat 8 (f (stackByte s 1).toNat (stackByte s 0).toNat)) }

/-- `Binary(f)` (R110): the result, or a stack underflow with fewer than two bytes. -/
def BinaryRule (i : Instr) (f : Nat → Nat → Nat) : Prop :=
  ∀ s : State, (2 ≤ s.depth → TwoToOneResult i f s) ∧ (s.depth < 2 → StopsWith i s .stackUnderflow)

/-- The exact state after an underflow of an instruction that pops two bytes: on an empty stack nothing moves, with one byte the
first pop stands (R130; for the ALU the spec's decision D4). -/
def UnderflowOfTwo (i : Instr) : Prop :=
  ∀ s : State,
    (s.depth = 1 → exec i s = .next (stopped { s with sp := 0xFFFF#16 } .stackUnderflow)) ∧
    (s.depth = 0 → exec i s = .next (stopped s .stackUnderflow))

/-- `Compare(rel)` (R130), with the exact state after an underflow. -/
def CompareRule (i : Instr) (rel : Nat → Nat → Bool) : Prop :=
  (∀ s : State, 2 ≤ s.depth → TwoToOneResult i (fun a b => if rel a b then 1 else 0) s) ∧ UnderflowOfTwo i

/-- The rule of `DIV` and `MOD` (R114, R115): a zero divisor faults after both pops, with no push. -/
def DivideRule (i : Instr) (f : Nat → Nat → Nat) : Prop :=
  ∀ s : State,
    (2 ≤ s.depth → stackByte s 0 ≠ 0#8 → TwoToOneResult i f s) ∧
    (2 ≤ s.depth → stackByte s 0 = 0#8 → exec i s = .next (stopped { s with sp := s.sp + 2 } .divisionByZero)) ∧
    (s.depth < 2 → StopsWith i s .stackUnderflow)

/-- The rule of an instruction that replaces the top byte `a` by `f a` (R110, R116, R120). -/
def UnaryRule (i : Instr) (f : Nat → Nat) : Prop :=
  ∀ s : State,
    (1 ≤ s.depth → exec i s = .next { s with
      mem := s.mem.write s.sp.toNat (BitVec.ofNat 8 (f (stackByte s 0).toNat)) }) ∧
    (s.depth = 0 → exec i s = .next (stopped s .stackUnderflow))

/-- The rule of an instruction that pushes one byte `v s` and pops nothing: it needs a stack that is not full (R27). -/
def PushRule (i : Instr) (v : State → Byte) : Prop :=
  ∀ s : State,
    (s.depth < 0xFFFF → exec i s = .next { s with
      sp := s.sp - 1
      mem := s.mem.write (s.sp.toNat - 1) (v s) }) ∧
    (s.depth = 0xFFFF → exec i s = .next (stopped s .stackOverflow))

/-- What every instruction but `IO` keeps: `BP`, the host and the model's own fields; the error slot and `running` too, unless
the instruction stopped the block. -/
def KeepsRest (s t : State) : Prop :=
  t.bp = s.bp ∧ t.host = s.host ∧ t.schedule = s.schedule ∧ t.free = s.free ∧
  ((t.error = s.error ∧ t.running = s.running) ∨
    ((t.error = .stackOverflow ∨ t.error = .stackUnderflow ∨ t.error = .divisionByZero ∨ t.error = .halt) ∧
      t.running = false))

/-- The instructions that store no byte. -/
def storesNothing : List Instr := [.nop, .halt, .pop, .ret]

/-- The instructions that pop two bytes and push one. -/
def twoToOne : List Instr :=
  [.add, .sub, .mul, .div, .mod, .and, .or, .xor, .shl, .shr, .eq, .neq, .gt, .lt, .gte, .lte, .loadInd]

/-- `s` with its host context changed by `f`. -/
def mapHost (s : State) (f : HostContext → HostContext) : State := { s with host := f s.host }

/-- The opaque grey of level `c` (R180), with the operators the rule uses. -/
def greyWord (c : Byte) : Argb :=
  0xFF000000#32 ||| (c.setWidth 32 <<< 16) ||| (c.setWidth 32 <<< 8) ||| c.setWidth 32

/-- `fb'` is `fb` with exactly the pixels of `on`, inside the 320 × 240 framebuffer, set to the grey of `c` (R180, R181). -/
def Painted (fb fb' : Framebuffer) (c : Byte) (on : Nat → Nat → Prop) : Prop :=
  ∀ x y, (on x y ∧ x < 320 ∧ y < 240 → fb'.read x y = some (greyWord c)) ∧
    (¬(on x y ∧ x < 320 ∧ y < 240) → fb'.read x y = fb.read x y)

/-- The host operations that only push, with the number of bytes pushed. -/
def pushingIds : List (Byte × Nat) := [(0x20#8, 1), (0x21#8, 1), (0x22#8, 1), (0x23#8, 2), (0x24#8, 2), (0x25#8, 1)]

/-- The host operations that pop, with the number of bytes popped. -/
def poppingIds : List (Byte × Nat) := [(0x01#8, 1), (0x10#8, 3), (0x11#8, 5), (0x12#8, 5)]

/-- The 13 operation ids of R166. -/
def definedIds : List Byte :=
  [0x00#8, 0x01#8, 0x02#8, 0x10#8, 0x11#8, 0x12#8, 0x13#8, 0x20#8, 0x21#8, 0x22#8, 0x23#8, 0x24#8, 0x25#8]

/-- How far the fetch of `i` advances `PC` from its opcode: the length, but one byte for `JMP`, whose operand is only peeked
at (R24, R150). -/
def fetchAdvance : Instr → Nat
  | .jmp _ => 1
  | i => i.length

/-- The iteration of `s` fetches: the block runs, the pump does not shut it down, and after the pump the host is not waiting
(R40 steps 1 and 2). -/
def Fetches (s : State) : Prop :=
  s.running = true ∧ (pumpAnswer s).shutdown = false ∧ hostWait (pumped s) = false

/-- An instruction with opcode byte `op` and length `len` whose operand would lie past `0xFFFF` stops the block at its operand
fetch with `INVALID_ADDRESS`, `PC` one past the opcode, and nothing else changed (R58, R74). -/
def OperandFetchFaults (op : Byte) (len : Nat) : Prop :=
  ∀ s : State, Fetches s → s.pc < 65536 → s.mem.read s.pc = op → 65536 < s.pc + len →
    step s = .next (stopped { pumped s with pc := s.pc + 1 } .invalidAddress)

/-- The fetch of `i`: where the iteration fetches and the bytes at `PC` begin with the encoding of `i`, the step runs `i` with `PC`
`n` bytes on (R73, R74). -/
def FetchedWith (i : Instr) (n : Nat) : Prop :=
  ∀ (s : State) (rest : List Byte), Fetches s → s.mem.bytesFrom s.pc 3 = encode i ++ rest →
    step s = exec i { pumped s with pc := s.pc + n }

/-- The encoding of an instruction of format `A16` with opcode `op` (R71). -/
def a16 (op : Byte) (addr : Addr) : List Byte :=
  [op, BitVec.ofNat 8 (addr.toNat % 256), BitVec.ofNat 8 (addr.toNat / 256)]

/-- Execute instructions one after the other, without fetching, as long as none stops the block. -/
def execSeq : List Instr → State → State → Prop
  | [], s, t => t = s
  | i :: rest, s, t => ∃ u, exec i s = .next u ∧ u.error = .ok ∧ execSeq rest u t

/-- The bytes a host operation pushes less those it pops (R166); `READ_CHAR` pushes its key once it has one (R169). -/
def hostNetPushes (id : Byte) (s : State) : Int :=
  if id = 0x02#8 then if s.host.keyAvailable then 1 else 0
  else (((pushingIds.lookup id).getD 0 : Nat) : Int) - (((poppingIds.lookup id).getD 0 : Nat) : Int)

/-- The bytes an instruction run in `s` pushes less those it pops. -/
def netPushes (i : Instr) (s : State) : Int :=
  match i with
  | .nop | .halt | .swap | .neg | .not | .jmp _ => 0
  | .push _ | .dup | .load _ => 1
  | .call _ => 2
  | .ret => -2
  | .storeInd => -3
  | .pop | .store _ | .jz _ | .jnz _ | .add | .sub | .mul | .div | .mod | .and | .or | .xor | .shl | .shr
  | .eq | .neq | .gt | .lt | .gte | .lte | .loadInd => -1
  | .io id => hostNetPushes id s

/-- Execute instructions one after the other, without fetching, none of them faulting, with `n` the sum of their net pushes. A
stop, by `HALT` or `EXIT`, can only come last. -/
def execNet : List Instr → State → State → Int → Prop
  | [], s, t, n => t = s ∧ n = 0
  | i :: rest, s, t, n =>
    s.error = .ok ∧ ∃ u, exec i s = .next u ∧ u.faulted = false ∧ execNet rest u t (n - netPushes i s)

end Sys2Proof.Spec

open Sys2Proof Sys2Proof.Machine Sys2Proof.Spec

/-! ### Encoding -/

/-- R80: disassembly is the inverse of the encoding: the bytes of any sequence of instructions, every operand at every value,
read back as that sequence, and so does what the assembler makes of it. -/
def Obligations.DisassemblyInvertsEncoding : Prop :=
  ∀ prog : List Instr,
    disassemble (prog.flatMap encode) = some prog ∧
    ∀ o : Assembler.Output, Assembler.assembleItems (prog.map .plain) = .ok o → disassemble o.image = some prog

/-- R71, R72: encoding and decoding agree, with every operand at every value: decoding the encoding of a well-formed instruction
gives it back, whatever bytes follow, and leaves those bytes; and the bytes an instruction is decoded from are its encoding. -/
def Obligations.DecodeEncodeAgree : Prop :=
  (∀ (i : Instr) (rest : List Byte), i.wellFormed = true → decode (encode i ++ rest) = .ok i rest) ∧
  (∀ (bs rest : List Byte) (i : Instr), decode bs = .ok i rest → bs = encode i ++ rest)

/-- R71, R72, R76: the opcode map: every row of the table, written out, decodes to its instruction, with the immediate as it
stands and the address low byte first (`hi ++ lo` is `(hi << 8) | lo`). -/
def Obligations.OpcodeMapDecodes : Prop :=
  ∀ v lo hi : Byte,
    decode [0x00#8] = .ok .nop [] ∧ decode [0x01#8] = .ok .halt [] ∧ decode [0x02#8, v] = .ok (.push v) [] ∧
    decode [0x03#8] = .ok .pop [] ∧ decode [0x04#8] = .ok .dup [] ∧ decode [0x05#8] = .ok .swap [] ∧
    decode [0x06#8] = .ok .add [] ∧ decode [0x07#8] = .ok .sub [] ∧ decode [0x08#8] = .ok .mul [] ∧
    decode [0x09#8] = .ok .div [] ∧ decode [0x0A#8] = .ok .mod [] ∧ decode [0x0B#8] = .ok .neg [] ∧
    decode [0x0C#8] = .ok .and [] ∧ decode [0x0D#8] = .ok .or [] ∧ decode [0x0E#8] = .ok .xor [] ∧
    decode [0x0F#8] = .ok .not [] ∧ decode [0x10#8] = .ok .shl [] ∧ decode [0x11#8] = .ok .shr [] ∧
    decode [0x12#8] = .ok .eq [] ∧ decode [0x13#8] = .ok .neq [] ∧ decode [0x14#8] = .ok .gt [] ∧
    decode [0x15#8] = .ok .lt [] ∧ decode [0x16#8] = .ok .gte [] ∧ decode [0x17#8] = .ok .lte [] ∧
    decode [0x18#8, lo, hi] = .ok (.load (hi ++ lo)) [] ∧ decode [0x19#8, lo, hi] = .ok (.store (hi ++ lo)) [] ∧
    decode [0x1A#8] = .ok .loadInd [] ∧ decode [0x1B#8] = .ok .storeInd [] ∧
    decode [0x1C#8, lo, hi] = .ok (.jmp (hi ++ lo)) [] ∧ decode [0x1D#8, lo, hi] = .ok (.jz (hi ++ lo)) [] ∧
    decode [0x1E#8, lo, hi] = .ok (.jnz (hi ++ lo)) [] ∧ decode [0x1F#8, lo, hi] = .ok (.call (hi ++ lo)) [] ∧
    decode [0x20#8] = .ok .ret [] ∧ decode [0x21#8, v] = .ok (.io v) []

/-- R77: the bytes `0x22..0xFF`, and only these, are illegal as opcodes, whatever follows; fetched in opcode position each stops
the block with `INVALID_OPCODE`, `PC` one past it, and nothing else changed. -/
def Obligations.IllegalOpcodesExactly : Prop :=
  (∀ (op : Byte) (rest : List Byte), decode (op :: rest) = .illegalOpcode op ↔ 0x22 ≤ op.toNat) ∧
  (∀ s : State, Fetches s → s.pc < 65536 → 0x22 ≤ (s.mem.read s.pc).toNat →
    step s = .next (stopped { pumped s with pc := s.pc + 1 } .invalidOpcode))

/-! ### Stack instructions -/

/-- R101: `PUSH` pushes its immediate, with `PC` past its operand; a full stack overflows; an operand past the top of memory is
not fetched and nothing is pushed. -/
def Obligations.PushPushesImmediate : Prop :=
  (∀ v : Byte, encode (.push v) = [0x02#8, v] ∧ FetchedWith (.push v) 2 ∧ PushRule (.push v) (fun _ => v)) ∧
  OperandFetchFaults 0x02#8 2

/-- `NOP` does nothing, `PC` is already past the opcode (R100, which the spec derives); `POP` raises `SP` by one and leaves the
byte in memory, or underflows with nothing moved (R102, which the spec derives from R28). -/
def Obligations.NopAndPopResult : Prop :=
  encode .nop = [0x00#8] ∧ encode .pop = [0x03#8] ∧ (∀ s : State, exec .nop s = .next s) ∧
  ∀ s : State,
    (1 ≤ s.depth → exec .pop s = .next { s with sp := s.sp + 1 }) ∧
    (s.depth = 0 → exec .pop s = .next (stopped s .stackUnderflow))

/-- `DUP` pushes a copy of the top; empty: underflow; full: overflow; both with `SP` and `M` unchanged (R103, decision D17).
`SWAP` exchanges the top two bytes in place, also on a full stack; with one byte the first pop stands (R104, decision D4;
notes/assumptions/9.md). -/
def Obligations.DupAndSwapResult : Prop :=
  encode .dup = [0x04#8] ∧ encode .swap = [0x05#8] ∧
  (∀ s : State,
    (1 ≤ s.depth → s.depth < 0xFFFF → exec .dup s = .next { s with
      sp := s.sp - 1
      mem := s.mem.write (s.sp.toNat - 1) (stackByte s 0) }) ∧
    (s.depth = 0 → exec .dup s = .next (stopped s .stackUnderflow)) ∧
    (s.depth = 0xFFFF → exec .dup s = .next (stopped s .stackOverflow))) ∧
  (∀ s : State, 2 ≤ s.depth → exec .swap s = .next { s with
      mem := (s.mem.write (s.sp.toNat + 1) (stackByte s 0)).write s.sp.toNat (stackByte s 1) }) ∧
  UnderflowOfTwo .swap

/-- The law of R105 (which the spec derives), over sequences of any instructions, every `IO` operation included (R166): if none of
them faults, the final depth is the initial depth plus the pushes less the pops. -/
def Obligations.NetStackEffect : Prop :=
  ∀ (prog : List Instr) (s t : State) (n : Int), execNet prog s t n → (t.depth : Int) = s.depth + n

/-- The capacity law of R29 (which the spec derives): from an empty stack 65 535 bytes, and any fewer, can be pushed one after
the other, and the push on a full stack overflows and leaves `SP` and memory. -/
def Obligations.StackCapacity : Prop :=
  ∀ (v : Byte) (s : State), s.depth = 0 → s.error = .ok →
    ∀ n, n ≤ 65535 → ∃ t, execSeq (List.replicate n (.push v)) s t ∧ t.depth = n ∧
      (∀ a, t.mem.read a = if 65535 - n ≤ a ∧ a < 65535 then v else s.mem.read a) ∧
      (n = 65535 → exec (.push v) t = .next (stopped t .stackOverflow))

/-! ### Arithmetic and logic -/

/-- R111, R112, R113: `ADD`, `SUB`, `MUL`, modulo 256. -/
def Obligations.AddSubMulResult : Prop :=
  encode .add = [0x06#8] ∧ encode .sub = [0x07#8] ∧ encode .mul = [0x08#8] ∧
  BinaryRule .add (fun a b => (a + b) % 256) ∧ BinaryRule .sub (fun a b => (a + 256 - b) % 256) ∧
  BinaryRule .mul (fun a b => (a * b) % 256)

/-- R114, R115: `DIV` and `MOD`, unsigned, and the fault on a zero divisor with `SP` at the post-pops position. -/
def Obligations.DivModResult : Prop :=
  encode .div = [0x09#8] ∧ encode .mod = [0x0A#8] ∧
  DivideRule .div (fun a b => a / b) ∧ DivideRule .mod (fun a b => a % b)

/-- R116, R120: `NEG` is the two's complement, `NOT` the bitwise complement. -/
def Obligations.NegNotResult : Prop :=
  encode .neg = [0x0B#8] ∧ encode .not = [0x0F#8] ∧
  UnaryRule .neg (fun a => (256 - a) % 256) ∧ UnaryRule .not (fun a => 255 - a)

/-- R117, R118, R119: the bitwise instructions. -/
def Obligations.AndOrXorResult : Prop :=
  encode .and = [0x0C#8] ∧ encode .or = [0x0D#8] ∧ encode .xor = [0x0E#8] ∧
  BinaryRule .and (fun a b => a &&& b) ∧ BinaryRule .or (fun a b => a ||| b) ∧ BinaryRule .xor (fun a b => a ^^^ b)

/-- R121, R122: the shifts; a count of 8 or more gives 0. -/
def Obligations.ShiftResult : Prop :=
  encode .shl = [0x10#8] ∧ encode .shr = [0x11#8] ∧
  BinaryRule .shl (fun a b => if 8 ≤ b then 0 else (a <<< b) % 256) ∧
  BinaryRule .shr (fun a b => if 8 ≤ b then 0 else a >>> b)

/-- The laws of R123 (which the spec derives): run on the same operands, `DIV` and `MOD` satisfy `(a / b) * b + (a % b) = a`
exactly, for every `b ≠ 0`; `NEG` gives what `SUB` of the operand from 0 gives, and what `NOT` plus 1 gives. -/
def Obligations.IntegerLaws : Prop :=
  (∀ s : State, 2 ≤ s.depth → stackByte s 0 ≠ 0#8 →
    ∃ q r : State, exec .div s = .next q ∧ exec .mod s = .next r ∧
      (stackByte q 0).toNat * (stackByte s 0).toNat + (stackByte r 0).toNat = (stackByte s 1).toNat ∧
      (stackByte r 0).toNat < (stackByte s 0).toNat) ∧
  (∀ s : State, 1 ≤ s.depth → s.depth < 0xFFFF → s.error = .ok →
    ∃ n u w : State, exec .neg s = .next n ∧ execSeq [.push 0#8, .swap, .sub] s u ∧
      execSeq [.not, .push 1#8, .add] s w ∧ u.sp = n.sp ∧ w.sp = n.sp ∧
      stackByte u 0 = stackByte n 0 ∧ stackByte w 0 = stackByte n 0)

/-- The exact state after an underflow of a binary ALU instruction: with one byte on the stack the first pop stands, `SP` is
`0xFFFF`; with none nothing moves. This is the spec's decision D4, not the source's word (notes/assumptions/9.md). -/
def Obligations.AluUnderflowState : Prop :=
  ∀ i ∈ ([.add, .sub, .mul, .div, .mod, .and, .or, .xor, .shl, .shr] : List Instr), UnderflowOfTwo i

/-! ### Comparison -/

/-- R130 to R136: the comparisons are unsigned, compare `a`, the byte below the top, with `b`, the top, and push 1 or 0; with one
byte on the stack an underflow leaves `SP = 0xFFFF`. -/
def Obligations.CompareResult : Prop :=
  encode .eq = [0x12#8] ∧ encode .neq = [0x13#8] ∧ encode .gt = [0x14#8] ∧
  encode .lt = [0x15#8] ∧ encode .gte = [0x16#8] ∧ encode .lte = [0x17#8] ∧
  CompareRule .eq (fun a b => a = b) ∧ CompareRule .neq (fun a b => a ≠ b) ∧
  CompareRule .gt (fun a b => a > b) ∧ CompareRule .lt (fun a b => a < b) ∧
  CompareRule .gte (fun a b => a ≥ b) ∧ CompareRule .lte (fun a b => a ≤ b)

/-! ### Load and store -/

/-- R140, R141: `LOAD` pushes the byte at its address, any of `0..0xFFFF`, or overflows; `STORE` pops a byte and writes it at
its address, or underflows with `M` unchanged; the operand of either is not fetched past the top of memory. -/
def Obligations.LoadAndStoreResult : Prop :=
  (∀ addr : Addr, encode (.load addr) = a16 0x18#8 addr ∧ FetchedWith (.load addr) 3 ∧
    PushRule (.load addr) (fun s => s.mem.read addr.toNat)) ∧
  OperandFetchFaults 0x18#8 3 ∧
  (∀ addr : Addr, encode (.store addr) = a16 0x19#8 addr ∧ FetchedWith (.store addr) 3 ∧ ∀ s : State,
    (1 ≤ s.depth → exec (.store addr) s = .next { s with
      sp := s.sp + 1
      mem := s.mem.write addr.toNat (stackByte s 0) }) ∧
    (s.depth = 0 → exec (.store addr) s = .next (stopped s .stackUnderflow))) ∧
  OperandFetchFaults 0x19#8 3

/-- R142: `LOAD_IND` takes the address from the stack, low byte on top, and pushes the byte there, also where the address
names the bytes just popped. -/
def Obligations.LoadIndPushesByte : Prop :=
  encode .loadInd = [0x1A#8] ∧
  (∀ s : State, 2 ≤ s.depth → exec .loadInd s = .next { s with
    sp := s.sp + 1
    mem := s.mem.write (s.sp.toNat + 1) (s.mem.read ((stackByte s 1).toNat * 256 + (stackByte s 0).toNat)) }) ∧
  UnderflowOfTwo .loadInd

/-- `STORE_IND` takes the address, low byte on top, then the value (R143); with one or two bytes on the stack the pops made stand
and `M` is unchanged, which is the spec's decision D4 (notes/assumptions/9.md). -/
def Obligations.StoreIndWritesByte : Prop :=
  encode .storeInd = [0x1B#8] ∧ ∀ s : State,
    (3 ≤ s.depth → exec .storeInd s = .next { s with
      sp := s.sp + 3
      mem := s.mem.write ((stackByte s 1).toNat * 256 + (stackByte s 0).toNat) (stackByte s 2) }) ∧
    (1 ≤ s.depth → s.depth ≤ 2 → exec .storeInd s = .next (stopped { s with sp := 0xFFFF#16 } .stackUnderflow)) ∧
    (s.depth = 0 → exec .storeInd s = .next (stopped s .stackUnderflow))

/-- A byte stored where the next instruction stands is what the next fetch sees; every other byte it sees is as
before (R66, which the spec derives). -/
def Obligations.StoreSeenByNextFetch : Prop :=
  ∀ (addr : Addr) (s t : State), 1 ≤ s.depth → exec (.store addr) s = .next t →
    ∀ k, k < 3 → s.pc + k < 65536 →
      (t.mem.bytesFrom t.pc 3)[k]? =
        some (if s.pc + k = addr.toNat then stackByte s 0 else s.mem.read (s.pc + k))

/-! ### Control transfer -/

/-- R150, R151, R152: `JMP` sets `PC` to its operand; `JZ` and `JNZ` consume the top byte whether or not they branch, and
underflow without branching; none fetches an operand past the top of memory. -/
def Obligations.JumpAndBranchResult : Prop :=
  (∀ addr : Addr, encode (.jmp addr) = a16 0x1C#8 addr ∧ encode (.jz addr) = a16 0x1D#8 addr ∧
    encode (.jnz addr) = a16 0x1E#8 addr ∧
    FetchedWith (.jmp addr) 1 ∧ FetchedWith (.jz addr) 3 ∧ FetchedWith (.jnz addr) 3) ∧
  OperandFetchFaults 0x1C#8 3 ∧ OperandFetchFaults 0x1D#8 3 ∧ OperandFetchFaults 0x1E#8 3 ∧
  ∀ (addr : Addr) (s : State),
    exec (.jmp addr) s = .next { s with pc := addr.toNat } ∧
    (1 ≤ s.depth → stackByte s 0 = 0#8 →
      exec (.jz addr) s = .next { s with sp := s.sp + 1, pc := addr.toNat } ∧
      exec (.jnz addr) s = .next { s with sp := s.sp + 1 }) ∧
    (1 ≤ s.depth → stackByte s 0 ≠ 0#8 →
      exec (.jz addr) s = .next { s with sp := s.sp + 1 } ∧
      exec (.jnz addr) s = .next { s with sp := s.sp + 1, pc := addr.toNat }) ∧
    (s.depth = 0 → exec (.jz addr) s = .next (stopped s .stackUnderflow) ∧
      exec (.jnz addr) s = .next (stopped s .stackUnderflow))

/-- `CALL` (R153, which the spec derives for the return address 65 536) pushes the return address, which is `PC` past the
operand, low byte first, and sets `PC`; where the second push overflows, the low byte stays at `M[0]`; at an overflow `PC` stays
the return address; the operand is not fetched past the top of memory. -/
def Obligations.CallPushesReturnAddress : Prop :=
  OperandFetchFaults 0x1F#8 3 ∧
  ∀ addr : Addr, encode (.call addr) = a16 0x1F#8 addr ∧ FetchedWith (.call addr) 3 ∧
    ∀ s : State,
      (s.depth ≤ 0xFFFD → exec (.call addr) s = .next { s with
        sp := s.sp - 2
        pc := addr.toNat
        mem := (s.mem.write (s.sp.toNat - 1) (BitVec.ofNat 8 (s.pc % 256))).write (s.sp.toNat - 2)
          (BitVec.ofNat 8 (s.pc / 256 % 256)) }) ∧
      (s.depth = 0xFFFE → exec (.call addr) s = .next (stopped { s with
        sp := 0x0000#16
        mem := s.mem.write 0 (BitVec.ofNat 8 (s.pc % 256)) } .stackOverflow)) ∧
      (s.depth = 0xFFFF → exec (.call addr) s = .next (stopped s .stackOverflow))

/-- R154: `RET` pops the high byte, then the low byte, and sets `PC`; an underflow leaves `PC` one past the `RET`, and with
one byte on the stack leaves `SP = 0xFFFF`. -/
def Obligations.RetPopsReturnAddress : Prop :=
  encode .ret = [0x20#8] ∧ FetchedWith .ret 1 ∧
  (∀ s : State, 2 ≤ s.depth → exec .ret s = .next { s with
    sp := s.sp + 2
    pc := (stackByte s 0).toNat * 256 + (stackByte s 1).toNat }) ∧
  UnderflowOfTwo .ret

/-- After a `CALL`, a `RET` from any state with the stack pointer and the two return-address bytes the `CALL` left (a
subroutine with balanced stack) returns to the instruction after the `CALL`, with the caller's `SP`. A return address of 65 536
comes back as 0 (R155, which the spec derives from R153 and R154). -/
def Obligations.CallRetMirror : Prop :=
  ∀ (addr : Addr) (s t u : State), s.depth ≤ 0xFFFD → s.pc ≤ 65536 → exec (.call addr) s = .next t →
    u.sp = t.sp → stackByte u 0 = stackByte t 0 → stackByte u 1 = stackByte t 1 →
    exec .ret u = .next { u with sp := s.sp, pc := s.pc % 65536 }

/-! ### System and host I/O -/

/-- R160: `HALT` is a clean stop; `PC` is one past it and nothing else changes. -/
def Obligations.HaltStopsCleanly : Prop :=
  encode .halt = [0x01#8] ∧ FetchedWith .halt 1 ∧
  ∀ s : State, exec .halt s = .next { s with error := .halt, running := false }

/-- What the block makes of any host transaction (R161, R162, decisions D5 and D24): a recorded stack fault stands; `NOT_OK` is
`HALT` for id 0 and `HOST_IO` for every other id; `OK` goes on. With the host that keeps its contract `IO 0x00` ends the run with
`HALT`, whatever is on the stack (R167). The operand is not fetched past the top of memory. -/
def Obligations.IoResultHandling : Prop :=
  OperandFetchFaults 0x21#8 2 ∧
  (∀ s : State, s.error = .ok → exec (.io 0x00#8) s = .next { s with error := .halt, running := false }) ∧
  ∀ (id : Byte) (status : HostStatus) (s : State),
    encode (.io id) = [0x21#8, id] ∧ FetchedWith (.io id) 2 ∧ exec (.io id) s = ioResult id (hostIO id s) ∧
    (s.error ≠ .ok → ioResult id (status, s) = .next s) ∧
    (s.error = .ok → ioResult id (.ok, s) = .next s) ∧
    (s.error = .ok → id = 0x00#8 → ioResult id (.notOk, s) = .next (stopped s .halt)) ∧
    (s.error = .ok → id ≠ 0x00#8 → ioResult id (.notOk, s) = .next (stopped s .hostIo))

/-- `PRINT_CHAR` (R168) pops a byte and appends it to standard output, whose form is the model's (notes/assumptions/18.md);
`REFRESH` (R173) makes the display show the framebuffer at every pixel, which is the model's reading of its flush
(notes/assumptions/19.md), and touches nothing else; no other operation changes what is shown unless a port fault leaves that
open (R162, D13); an id the host does not define (R179) ends in `HOST_IO`, with no stack request. -/
def Obligations.PrintRefreshUndefinedResult : Prop :=
  ∀ s : State, s.error = .ok →
    (1 ≤ s.depth → exec (.io 0x01#8) s = .next (mapHost { s with sp := s.sp + 1 } fun h =>
      { h with stdout := h.stdout ++ [stackByte s 0] })) ∧
    (∃ t, exec (.io 0x13#8) s = .next t ∧ t = mapHost s (fun h => { h with refreshed := t.host.refreshed }) ∧
      ∀ x y, t.host.shown x y = s.host.framebuffer.read x y) ∧
    (∀ (id : Byte) (t : State), id ≠ 0x13#8 → exec (.io id) s = .next t → t.error ≠ .stackUnderflow →
      t.error ≠ .stackOverflow → t.host.refreshed = s.host.refreshed) ∧
    (∀ id : Byte, id ∉ definedIds → exec (.io id) s = .next (stopped s .hostIo))

/-- `READ_CHAR` (R169, decisions D9 to D11; below `PC = 2`, where no run rewinds, the model's choice of notes/assumptions/13.md)
with no key sets waiting and rewinds `PC` to the `IO` opcode; with a key it pushes
the key byte and clears both flags. -/
def Obligations.ReadCharProtocol : Prop :=
  ∀ s : State, s.error = .ok →
    (s.host.keyAvailable = false → exec (.io 0x02#8) s = .next (mapHost { s with pc := s.pc - 2 } fun h =>
      { h with waiting := true })) ∧
    (s.host.keyAvailable = true → s.depth < 0xFFFF → exec (.io 0x02#8) s = .next (mapHost { s with
        sp := s.sp - 1
        mem := s.mem.write (s.sp.toNat - 1) s.host.key } fun h =>
      { h with keyAvailable := false, waiting := false }))

/-- R172, R180: `FILL_RECT` pops colour, h, w, y, x and paints exactly the pixels of `[x, x+w) × [y, y+h)` inside the
framebuffer with the grey of the colour. -/
def Obligations.FillRectPaintsRectangle : Prop :=
  ∀ s : State, s.error = .ok → 5 ≤ s.depth →
    ∃ fb, exec (.io 0x12#8) s = .next (mapHost { s with sp := s.sp + 5 } fun h => { h with framebuffer := fb }) ∧
      Painted s.host.framebuffer fb (stackByte s 0)
        (fun x y => (stackByte s 4).toNat ≤ x ∧ x < (stackByte s 4).toNat + (stackByte s 2).toNat ∧
          (stackByte s 3).toNat ≤ y ∧ y < (stackByte s 3).toNat + (stackByte s 1).toNat)

/-- `DRAW_PIXEL` (R170) pops colour, y, x and paints that pixel, clipped. `DRAW_LINE` (R171) pops colour, y2, x2, y1, x1 and
paints the line's pixels, clipped; which pixels these are is the open parameter HOST_LINE (decision D13;
notes/assumptions/6.md), so the statement holds for every value of it. -/
def Obligations.PixelAndLinePaint : Prop :=
  ∀ s : State, s.error = .ok →
    (3 ≤ s.depth → ∃ fb, exec (.io 0x10#8) s =
        .next (mapHost { s with sp := s.sp + 3 } fun h => { h with framebuffer := fb }) ∧
      Painted s.host.framebuffer fb (stackByte s 0)
        (fun x y => x = (stackByte s 2).toNat ∧ y = (stackByte s 1).toNat)) ∧
    (5 ≤ s.depth → ∃ fb, exec (.io 0x11#8) s =
        .next (mapHost { s with sp := s.sp + 5 } fun h => { h with framebuffer := fb }) ∧
      Painted s.host.framebuffer fb (stackByte s 0)
        (fun x y => (x, y) ∈ Config.linePixels (stackByte s 4) (stackByte s 3) (stackByte s 2) (stackByte s 1)))

/-- `POLL_KEY` (R174) and `POLL_MOUSE` (R176) push 1 if their flag is set, else 0, and keep it. `GET_MOUSE_B` (R178) pushes the
button mask and clears the mouse-event flag. -/
def Obligations.PollAndMouseButtonPushes : Prop :=
  ∀ s : State, s.error = .ok → s.depth < 0xFFFF →
    exec (.io 0x20#8) s = .next { s with
      sp := s.sp - 1
      mem := s.mem.write (s.sp.toNat - 1) (if s.host.keyAvailable then 1#8 else 0#8) } ∧
    exec (.io 0x22#8) s = .next { s with
      sp := s.sp - 1
      mem := s.mem.write (s.sp.toNat - 1) (if s.host.mouseEvent then 1#8 else 0#8) } ∧
    exec (.io 0x25#8) s = .next (mapHost { s with
      sp := s.sp - 1
      mem := s.mem.write (s.sp.toNat - 1) s.host.mouseMask } fun h => { h with mouseEvent := false })

/-- `GET_KEY` (R175; decision D13 for a key byte before any key) pushes the latest key byte and clears key-available.
`GET_MOUSE_X` and `GET_MOUSE_Y` (R177, decision D12) push the coordinate low byte first, so the high byte ends on top. -/
def Obligations.GetKeyAndMousePosition : Prop :=
  ∀ s : State, s.error = .ok →
    (s.depth < 0xFFFF → exec (.io 0x21#8) s = .next (mapHost { s with
      sp := s.sp - 1
      mem := s.mem.write (s.sp.toNat - 1) s.host.key } fun h => { h with keyAvailable := false })) ∧
    (s.depth ≤ 0xFFFD →
      exec (.io 0x23#8) s = .next { s with
        sp := s.sp - 2
        mem := (s.mem.write (s.sp.toNat - 1) (BitVec.ofNat 8 (s.host.mouseX.toNat % 256))).write (s.sp.toNat - 2)
          (BitVec.ofNat 8 (s.host.mouseX.toNat / 256)) } ∧
      exec (.io 0x24#8) s = .next { s with
        sp := s.sp - 2
        mem := (s.mem.write (s.sp.toNat - 1) (BitVec.ofNat 8 (s.host.mouseY.toNat % 256))).write (s.sp.toNat - 2)
          (BitVec.ofNat 8 (s.host.mouseY.toNat / 256)) })

/-- R162 (decision D5; notes/assumptions/9.md): an operation that pops more bytes than the stack holds stops with
`STACK_UNDERFLOW`, and one that pushes more than fit with `STACK_OVERFLOW`, never with `HOST_IO` or `HALT`; `PC` and `BP`
stay; an underflow leaves `M`, an overflow of the first push leaves `M` and `SP`, and one of the second push of a mouse coordinate
leaves its low byte at `M[0]`. -/
def Obligations.PortFaultStands : Prop :=
  ∀ s : State, s.error = .ok →
    (∀ p ∈ poppingIds, s.depth < p.2 → ∃ t, exec (.io p.1) s = .next t ∧ t.error = .stackUnderflow ∧
      t.running = false ∧ t.sp = 0xFFFF#16 ∧ t.mem = s.mem ∧ t.pc = s.pc ∧ t.bp = s.bp) ∧
    (∀ p ∈ pushingIds, s.depth = 0xFFFF → ∃ t, exec (.io p.1) s = .next t ∧ t.error = .stackOverflow ∧
      t.running = false ∧ t.sp = 0x0000#16 ∧ t.mem = s.mem ∧ t.pc = s.pc ∧ t.bp = s.bp) ∧
    (s.depth = 0xFFFE →
      exec (.io 0x23#8) s = .next (stopped { s with
        sp := 0x0000#16
        mem := s.mem.write 0 (BitVec.ofNat 8 (s.host.mouseX.toNat % 256)) } .stackOverflow) ∧
      exec (.io 0x24#8) s = .next (stopped { s with
        sp := 0x0000#16
        mem := s.mem.write 0 (BitVec.ofNat 8 (s.host.mouseY.toNat % 256)) } .stackOverflow)) ∧
    (s.host.keyAvailable = true → s.depth = 0xFFFF → ∃ t, exec (.io 0x02#8) s = .next t ∧ t.error = .stackOverflow ∧
      t.running = false ∧ t.sp = 0x0000#16 ∧ t.mem = s.mem ∧ t.pc = s.pc ∧ t.bp = s.bp)

/-- R48 (decision D5) and R165: once a fault is recorded, no sequence of port requests changes memory, `SP`, `BP`, `running` or
the error, and only a rewind moves `PC`; and every host operation acts on the block only as some sequence of port requests would, where only `READ_CHAR`
rewinds. -/
def Obligations.HostConfinedToPort : Prop :=
  (∀ (s : State) (requests : List PortRequest), s.error ≠ .ok →
    (portRun s requests).mem = s.mem ∧ (portRun s requests).sp = s.sp ∧ (portRun s requests).bp = s.bp ∧
    (portRun s requests).running = s.running ∧ (portRun s requests).error = s.error ∧
    (PortRequest.rewind ∉ requests → (portRun s requests).pc = s.pc)) ∧
  (∀ (id : Byte) (s : State), ∃ requests : List PortRequest,
    SameBlock (hostIO id s).2 (portRun s requests) ∧ (PortRequest.rewind ∈ requests → id = 0x02#8))

/-! ### Frames -/

/-- The instructions that store nothing leave every byte of memory and all but `SP`, `PC` and the stop; `SP` moves only in
`POP`, `RET`, `JZ` and `JNZ`, `PC` only in `RET` and the jumps, with any target. -/
def Obligations.FrameStoresNothing : Prop :=
  ∀ (addr : Addr) (i : Instr) (s t : State), i ∈ storesNothing ++ [.jmp addr, .jz addr, .jnz addr] →
    exec i s = .next t → KeepsRest s t ∧ (∀ a, t.mem.read a = s.mem.read a) ∧
      (i = .nop ∨ i = .halt ∨ i = .jmp addr → t.sp = s.sp) ∧
      (i = .nop ∨ i = .halt ∨ i = .pop → t.pc = s.pc)

/-- The instructions that pop two bytes and push one, and `NEG` and `NOT`, change at most the one byte at the result's place and
leave `PC`. -/
def Obligations.FrameAluAndCompare : Prop :=
  (∀ (i : Instr) (s t : State), i ∈ twoToOne → exec i s = .next t →
    KeepsRest s t ∧ t.pc = s.pc ∧ ∀ a, a ≠ s.sp.toNat + 1 → t.mem.read a = s.mem.read a) ∧
  (∀ (i : Instr) (s t : State), i = .neg ∨ i = .not → exec i s = .next t →
    KeepsRest s t ∧ t.pc = s.pc ∧ t.sp = s.sp ∧ ∀ a, a ≠ s.sp.toNat → t.mem.read a = s.mem.read a)

/-- The pushing instructions change at most the byte below `SP` (`CALL`: the two bytes below it), `SWAP` the top two. -/
def Obligations.FramePushes : Prop :=
  (∀ (v : Byte) (addr : Addr) (i : Instr) (s t : State), i = .push v ∨ i = .dup ∨ i = .load addr → exec i s = .next t →
    KeepsRest s t ∧ t.pc = s.pc ∧ ∀ a, a ≠ s.sp.toNat - 1 → t.mem.read a = s.mem.read a) ∧
  (∀ (addr : Addr) (s t : State), exec (.call addr) s = .next t →
    KeepsRest s t ∧ ∀ a, a ≠ s.sp.toNat - 1 → a ≠ s.sp.toNat - 2 → t.mem.read a = s.mem.read a) ∧
  (∀ s t : State, exec .swap s = .next t →
    KeepsRest s t ∧ t.pc = s.pc ∧ ∀ a, a ≠ s.sp.toNat → a ≠ s.sp.toNat + 1 → t.mem.read a = s.mem.read a)

/-- `STORE` changes at most the byte at its address, `STORE_IND` at most the byte at the address on the stack. -/
def Obligations.FrameStores : Prop :=
  (∀ (addr : Addr) (s t : State), exec (.store addr) s = .next t →
    KeepsRest s t ∧ t.pc = s.pc ∧ ∀ a, a ≠ addr.toNat → t.mem.read a = s.mem.read a) ∧
  (∀ s t : State, exec .storeInd s = .next t →
    KeepsRest s t ∧ t.pc = s.pc ∧
    ∀ a, a ≠ (addrOf (stackByte s 1) (stackByte s 0)).toNat → t.mem.read a = s.mem.read a)

/-- `IO` keeps `BP` and the schedule, stores at most the one or two bytes below `SP`, and only `READ_CHAR` moves `PC`. The
operations that push nothing leave all of memory. -/
def Obligations.FrameIo : Prop :=
  ∀ (id : Byte) (s t : State), exec (.io id) s = .next t →
    t.bp = s.bp ∧ t.schedule = s.schedule ∧ (id ≠ 0x02#8 → t.pc = s.pc) ∧
    (id ≠ 0x02#8 → id ∉ pushingIds.map Prod.fst → ∀ a, t.mem.read a = s.mem.read a) ∧
    ∀ a, a ≠ s.sp.toNat - 1 → a ≠ s.sp.toNat - 2 → t.mem.read a = s.mem.read a

/-- No instruction but `IO` has an effect outside the block, or uses a free value (R60, 20_memory.md). -/
def Obligations.OnlyIoReachesTheHost : Prop :=
  ∀ (i : Instr) (s t : State), (∀ id, i ≠ .io id) → exec i s = .next t →
    t.host = s.host ∧ t.schedule = s.schedule ∧ t.free = s.free

/-! ### Initialisation -/

/-- R230 (decision D8 for the refusal), R231, R232: from any state, stopped or running, `INIT` sets every piece of block state,
and memory to the image followed by zeros, and does not touch the host; it refuses an image that is too long. With the empty
image it gives the model's reset state (notes/assumptions/11.md). -/
def Obligations.InitLoadsImage : Prop :=
  State.init [] State.reset = .next State.reset ∧
  ∀ (image : List Byte) (s : State),
    (image.length ≤ 65536 → ∃ t, State.init image s = .next t ∧
      (∀ a, a < 65536 → t.mem.read a = image.getD a 0#8) ∧ t.mem.wf ∧ t.pc = 0 ∧ t.sp = 0xFFFF#16 ∧ t.bp = 0xFFFF#16 ∧
      t.running = true ∧ t.error = .ok ∧ t.host = s.host) ∧
    (65536 < image.length → State.init image s = .refused (.imageTooLong image.length))

/-! ### The iteration -/

/-- R40 steps 3 to 5 with R24: where the iteration fetches and the bytes at `PC` decode to `i`, the step is `exec i` on the
state after the pump, with `PC` past the instruction, or one past the opcode for `JMP`. -/
def Obligations.StepRunsTheDecodedInstruction : Prop :=
  ∀ (s : State) (i : Instr) (rest : List Byte), Fetches s → decode (s.mem.bytesFrom s.pc 3) = .ok i rest →
    step s = exec i { pumped s with pc := s.pc + fetchAdvance i }

/-- R40 step 3, R58, R74 (decisions D2 and D18; notes/assumptions/9.md): `PC` at 65 536 stops the block with `INVALID_ADDRESS`
and `PC` unchanged; an operand that would lie past `0xFFFF` does so with `PC` one past the opcode, which stands at `0xFFFE` or
`0xFFFF`; and these, with an illegal opcode, are the only ways a fetch fails. -/
def Obligations.FetchFaults : Prop :=
  ∀ s : State, Fetches s →
    (65536 ≤ s.pc → step s = .next (stopped (pumped s) .invalidAddress)) ∧
    (decode (s.mem.bytesFrom s.pc 3) = .truncated →
      step s = .next (stopped { pumped s with pc := s.pc + 1 } .invalidAddress) ∧ 65534 ≤ s.pc) ∧
    (s.pc < 65534 → (s.mem.read s.pc).toNat ≤ 0x21 → ∃ i rest, decode (s.mem.bytesFrom s.pc 3) = .ok i rest)

/-- R40 steps 1 and 2, R46, R47 (decisions D7 and D9): a shutdown clears `running` and changes no other block state, `error`
included; a waiting host ends the iteration with the block unchanged. -/
def Obligations.ShutdownAndWaitEndTheIteration : Prop :=
  ∀ s : State, s.running = true →
    ((pumpAnswer s).shutdown = true → ∃ t, step s = .next t ∧ t.running = false ∧ SameBlock { t with running := true } s) ∧
    ((pumpAnswer s).shutdown = false → hostWait (pumped s) = true → ∃ t, step s = .next t ∧ SameBlock t s)

/-- R40, R169, R182, R214 (decisions D9 to D11; that a pump's latches show in its own iteration is notes/assumptions/10.md, that
the events of a pump latch in order notes/assumptions/3.md): a block that waits for a key at an `IO 0x02` stays as it is through
every pump that latches no key; the pump that latches one ends the wait, and in that iteration the key latched last is pushed and
both flags are cleared. A poll pushes the flag as the pump of its iteration leaves it (R40, R174,
R176, R182, against R240; notes/assumptions/10.md), and nothing else of the block depends on that pump. -/
def Obligations.WaitEndsWithAKey : Prop :=
  (∀ (s : State) (answer : PumpAnswer) (later : List PumpAnswer),
    s.running = true → s.error = .ok → s.host.waiting = true → s.host.keyAvailable = false →
    s.schedule = answer :: later → answer.shutdown = false →
    ((∀ b, InputEvent.key b ∉ answer.events) → ∃ t, step s = .next t ∧ SameBlock t s ∧ t.host.waiting = true ∧
      t.host.keyAvailable = false) ∧
    (∀ (b : Byte) (before after : List InputEvent), answer.events = before ++ .key b :: after →
      (∀ c, InputEvent.key c ∉ after) → s.pc ≤ 65534 → s.mem.read s.pc = 0x21#8 → s.mem.read (s.pc + 1) = 0x02#8 →
      s.depth < 0xFFFF → ∃ t, step s = .next t ∧ t.pc = s.pc + 2 ∧ t.sp = s.sp - 1 ∧
        t.mem = s.mem.write (s.sp.toNat - 1) b ∧ t.error = .ok ∧ t.running = true ∧
        t.host.waiting = false ∧ t.host.keyAvailable = false)) ∧
  (∀ s : State, Fetches s → s.error = .ok → s.depth < 0xFFFF → s.pc ≤ 65534 → s.mem.read s.pc = 0x21#8 →
    (∀ event, (s.mem.read (s.pc + 1) = 0x20#8 ∧
        (event = true ↔ s.host.keyAvailable = true ∨ ∃ b, InputEvent.key b ∈ (pumpAnswer s).events)) ∨
      (s.mem.read (s.pc + 1) = 0x22#8 ∧
        (event = true ↔ s.host.mouseEvent = true ∨ ∃ x y mask, InputEvent.mouse x y mask ∈ (pumpAnswer s).events)) →
      ∃ t, step s = .next t ∧ SameBlock t { s with
        pc := s.pc + 2
        sp := s.sp - 1
        mem := s.mem.write (s.sp.toNat - 1) (if event then 1#8 else 0#8) }))

/-- R44 (decision D6; notes/assumptions/2.md): a stopped state is final: no number of steps changes it. -/
def Obligations.StoppedStateIsFinal : Prop :=
  ∀ (s : State) (k : Nat), s.running = false → runsTo s k s

/-- R234 (which the spec derives): with an empty image and a host that stays quiet, the block executes 65 536 `NOP`s and then
stops with `INVALID_ADDRESS` at `PC = 65536`, after 65 537 iterations; the same from any `PC` with zeros above it. -/
def Obligations.ZeroedMemoryRunsOff : Prop :=
  (∀ s : State, s.running = true → s.schedule = [] → hostWait s = false → s.pc ≤ 65536 →
    (∀ a, s.pc ≤ a → a < 65536 → s.mem.read a = 0#8) →
    runsTo s (65536 - s.pc + 1) (stopped { s with pc := 65536 } .invalidAddress)) ∧
  (∀ s t : State, s.schedule = [] → hostWait s = false → State.init [] s = .next t →
    runsTo t 65537 (stopped { t with pc := 65536 } .invalidAddress))

/-- The interface promise of `withFetchWord`: the very next step runs exactly the decoded instruction, from any state. This is
the model's own convention (notes/assumptions/11.md). -/
def Obligations.PlacedWordRunsNext : Prop :=
  ∀ (s : State) (nbits w : Nat) (i : Instr), decodeTableWord nbits w = some i →
    step (s.withFetchWord nbits w) = exec i { s.withFetchWord nbits w with
      pc := (s.withFetchWord nbits w).pc + fetchAdvance i
      schedule := s.schedule
      host := { s.host with waiting := false } }

/-! ### Whole-machine rules -/

/-- Every step keeps the invariant: memory and framebuffers in canonical form, `PC` in `0..65536`, `BP` at `0xFFFF`, no error
without a stop. -/
def Obligations.StepKeepsInvariant : Prop :=
  ∀ s t : State, s.Inv → step s = .next t → t.Inv

/-- The reset state meets the invariant. -/
def Obligations.ResetMeetsInvariant : Prop := State.reset.Inv

/-- `INIT` establishes the block's part of the invariant from any state. -/
def Obligations.InitEstablishesInvariant : Prop :=
  ∀ (image : List Byte) (s t : State), s.host.framebuffer.wf →
    (∀ fb, s.host.refreshed = some fb → fb.wf) →
    State.init image s = .next t → t.Inv

/-- Every step, and every instruction, has a next state: nothing this machine does ends in a model fault or a refusal, since the
spec's faults are states (notes/assumptions/1.md). That a stopped block has a step at all is the model's choice
(notes/assumptions/2.md). -/
def Obligations.EveryStepHasANextState : Prop :=
  (∀ s : State, ∃ t, step s = .next t) ∧ ∀ (i : Instr) (s : State), ∃ t, exec i s = .next t

/-- R30 (decision D23): no step reads or writes `BP`: it keeps its value, and two states that differ in `BP` alone step to
states that differ in `BP` alone. -/
def Obligations.BpNeitherReadNorWritten : Prop :=
  ∀ (s t : State) (b : Addr), step s = .next t → t.bp = s.bp ∧ step { s with bp := b } = .next { t with bp := b }

/-- R31: `running` is set by `INIT` alone; `HALT`, the `EXIT` operation, every fault and the host's shutdown clear it, and once
it is clear no step sets it again. -/
def Obligations.RunningFallsOnce : Prop :=
  (∀ (image : List Byte) (s t : State), State.init image s = .next t → t.running = true) ∧
  (∀ s t : State, exec .halt s = .next t ∨ exec (.io 0x00#8) s = .next t ∧ s.error = .ok → t.running = false) ∧
  (∀ s t : State, s.Inv → step s = .next t → t.error ≠ .ok → t.running = false) ∧
  (∀ s t : State, (pumpAnswer s).shutdown = true → step s = .next t → t.running = false) ∧
  (∀ s t : State, step s = .next t → s.running = false → t.running = false) ∧
  (∀ s t : State, s.Inv → s.running = true → step s = .next t → t.running = false →
    t.error ≠ .ok ∨ (pumpAnswer s).shutdown = true)

/-- R33, R44 (decisions D5 and D6): once an error is recorded it stands for the rest of the run, however many steps follow. -/
def Obligations.FirstErrorStands : Prop :=
  ∀ (s t : State) (k : Nat), s.Inv → s.error ≠ .ok → runsTo s k t → t.error = s.error ∧ t.running = false

/-- R42 (which the spec derives): a step that ends a run ends it in exactly one of three ways, told apart by `error`: `HALT`;
`OK`, by host shutdown; or a fault. -/
def Obligations.RunEndsInOneOfThreeWays : Prop :=
  ∀ s t : State, s.Inv → s.running = true → step s = .next t → t.running = false →
    (t.error = .halt ∧ (pumpAnswer s).shutdown = false) ∨ (t.error = .ok ∧ (pumpAnswer s).shutdown = true) ∨
    (t.faulted = true ∧ (pumpAnswer s).shutdown = false)

/-- R36: the host's outputs are opaque to the block: two states that differ only in standard output, framebuffer, display and
the index of free values step to two such states, so no output, and no free value, ever reaches the block. -/
def Obligations.OutputsNeverReachTheBlock : Prop :=
  ∀ s t s' t' : State, SameButOutputs s t → step s = .next s' → step t = .next t' → SameButOutputs s' t'

/-! ### The assembler -/

/-- R89, R91 (decision D19): assembling statements with numeric operands only gives the encodings one after the other, without
warnings, up to 65 536 bytes; a longer output is an error. -/
def Obligations.AssemblerEmitsEncodings : Prop :=
  ∀ prog : List Instr,
    ((prog.flatMap encode).length ≤ 65536 →
      Assembler.assembleItems (prog.map .plain) =
        .ok { image := prog.flatMap encode, warnings := [], unresolved := [] }) ∧
    (65536 < (prog.flatMap encode).length →
      Assembler.assembleItems (prog.map .plain) = .error .outputTooLong)

/-- R86, R90 (decision D19): a label's address is its output position, and a reference to it, before or after its definition,
holds that address, low byte first. -/
def Obligations.LabelsResolveToPositions : Prop :=
  ∀ (a b c : List Instr) (op : Byte) (name : List Char),
    (a.flatMap encode).length + (b.flatMap encode).length + (c.flatMap encode).length + 3 < 65536 →
    Assembler.assembleItems (a.map .plain ++ [.labelled op name] ++ b.map .plain ++ [.define name] ++ c.map .plain) =
      .ok {
        image := a.flatMap encode ++
          [op, lowByte ((a.flatMap encode).length + 3 + (b.flatMap encode).length),
            highByte ((a.flatMap encode).length + 3 + (b.flatMap encode).length)] ++
          b.flatMap encode ++ c.flatMap encode
        warnings := []
        unresolved := [] } ∧
    Assembler.assembleItems (a.map .plain ++ [.define name] ++ b.map .plain ++ [.labelled op name] ++ c.map .plain) =
      .ok {
        image := a.flatMap encode ++ b.flatMap encode ++
          [op, lowByte (a.flatMap encode).length, highByte (a.flatMap encode).length] ++ c.flatMap encode
        warnings := []
        unresolved := [] }
end

