-- ==== Sys2Proof/Laws/State.lean ====
section
/-! SUPPORT. What each named update of the state leaves in each field: one lemma per field per update. -/

namespace Sys2Proof.Machine

variable (s : State)

/-! ### `withPc` -/

@[simp] theorem withPc_mem (n : Nat) : (s.withPc n).mem = s.mem := rfl
@[simp] theorem withPc_pc (n : Nat) : (s.withPc n).pc = n := rfl
@[simp] theorem withPc_sp (n : Nat) : (s.withPc n).sp = s.sp := rfl
@[simp] theorem withPc_bp (n : Nat) : (s.withPc n).bp = s.bp := rfl
@[simp] theorem withPc_running (n : Nat) : (s.withPc n).running = s.running := rfl
@[simp] theorem withPc_error (n : Nat) : (s.withPc n).error = s.error := rfl
@[simp] theorem withPc_host (n : Nat) : (s.withPc n).host = s.host := rfl
@[simp] theorem withPc_schedule (n : Nat) : (s.withPc n).schedule = s.schedule := rfl
@[simp] theorem withPc_free (n : Nat) : (s.withPc n).free = s.free := rfl

/-! ### `withSp` -/

@[simp] theorem withSp_mem (a : Addr) : (s.withSp a).mem = s.mem := rfl
@[simp] theorem withSp_pc (a : Addr) : (s.withSp a).pc = s.pc := rfl
@[simp] theorem withSp_sp (a : Addr) : (s.withSp a).sp = a := rfl
@[simp] theorem withSp_bp (a : Addr) : (s.withSp a).bp = s.bp := rfl
@[simp] theorem withSp_running (a : Addr) : (s.withSp a).running = s.running := rfl
@[simp] theorem withSp_error (a : Addr) : (s.withSp a).error = s.error := rfl
@[simp] theorem withSp_host (a : Addr) : (s.withSp a).host = s.host := rfl
@[simp] theorem withSp_schedule (a : Addr) : (s.withSp a).schedule = s.schedule := rfl
@[simp] theorem withSp_free (a : Addr) : (s.withSp a).free = s.free := rfl

/-! ### `withByte` -/

@[simp] theorem withByte_mem (a : Addr) (v : Byte) : (s.withByte a v).mem = s.mem.write a.toNat v := rfl
@[simp] theorem withByte_pc (a : Addr) (v : Byte) : (s.withByte a v).pc = s.pc := rfl
@[simp] theorem withByte_sp (a : Addr) (v : Byte) : (s.withByte a v).sp = s.sp := rfl
@[simp] theorem withByte_bp (a : Addr) (v : Byte) : (s.withByte a v).bp = s.bp := rfl
@[simp] theorem withByte_running (a : Addr) (v : Byte) : (s.withByte a v).running = s.running := rfl
@[simp] theorem withByte_error (a : Addr) (v : Byte) : (s.withByte a v).error = s.error := rfl
@[simp] theorem withByte_host (a : Addr) (v : Byte) : (s.withByte a v).host = s.host := rfl
@[simp] theorem withByte_schedule (a : Addr) (v : Byte) : (s.withByte a v).schedule = s.schedule := rfl
@[simp] theorem withByte_free (a : Addr) (v : Byte) : (s.withByte a v).free = s.free := rfl

/-! ### `withHost` -/

@[simp] theorem withHost_mem (h : HostContext) : (s.withHost h).mem = s.mem := rfl
@[simp] theorem withHost_pc (h : HostContext) : (s.withHost h).pc = s.pc := rfl
@[simp] theorem withHost_sp (h : HostContext) : (s.withHost h).sp = s.sp := rfl
@[simp] theorem withHost_bp (h : HostContext) : (s.withHost h).bp = s.bp := rfl
@[simp] theorem withHost_running (h : HostContext) : (s.withHost h).running = s.running := rfl
@[simp] theorem withHost_error (h : HostContext) : (s.withHost h).error = s.error := rfl
@[simp] theorem withHost_host (h : HostContext) : (s.withHost h).host = h := rfl
@[simp] theorem withHost_schedule (h : HostContext) : (s.withHost h).schedule = s.schedule := rfl
@[simp] theorem withHost_free (h : HostContext) : (s.withHost h).free = s.free := rfl

/-! ### `drawFree` -/

@[simp] theorem drawFree_mem : (s.drawFree).mem = s.mem := rfl
@[simp] theorem drawFree_pc : (s.drawFree).pc = s.pc := rfl
@[simp] theorem drawFree_sp : (s.drawFree).sp = s.sp := rfl
@[simp] theorem drawFree_bp : (s.drawFree).bp = s.bp := rfl
@[simp] theorem drawFree_running : (s.drawFree).running = s.running := rfl
@[simp] theorem drawFree_error : (s.drawFree).error = s.error := rfl
@[simp] theorem drawFree_host : (s.drawFree).host = s.host := rfl
@[simp] theorem drawFree_schedule : (s.drawFree).schedule = s.schedule := rfl
@[simp] theorem drawFree_free : (s.drawFree).free = s.free + 1 := rfl

/-! ### `raise` -/

@[simp] theorem raise_mem (e : ErrorSlot) : (raise e s).mem = s.mem := rfl
@[simp] theorem raise_pc (e : ErrorSlot) : (raise e s).pc = s.pc := rfl
@[simp] theorem raise_sp (e : ErrorSlot) : (raise e s).sp = s.sp := rfl
@[simp] theorem raise_bp (e : ErrorSlot) : (raise e s).bp = s.bp := rfl
@[simp] theorem raise_running (e : ErrorSlot) : (raise e s).running = false := rfl
@[simp] theorem raise_error (e : ErrorSlot) : (raise e s).error = e := rfl
@[simp] theorem raise_host (e : ErrorSlot) : (raise e s).host = s.host := rfl
@[simp] theorem raise_schedule (e : ErrorSlot) : (raise e s).schedule = s.schedule := rfl
@[simp] theorem raise_free (e : ErrorSlot) : (raise e s).free = s.free := rfl

/-! ### `halt` -/

@[simp] theorem halt_mem : (halt s).mem = s.mem := rfl
@[simp] theorem halt_pc : (halt s).pc = s.pc := rfl
@[simp] theorem halt_sp : (halt s).sp = s.sp := rfl
@[simp] theorem halt_bp : (halt s).bp = s.bp := rfl
@[simp] theorem halt_running : (halt s).running = false := rfl
@[simp] theorem halt_error : (halt s).error = .halt := rfl
@[simp] theorem halt_host : (halt s).host = s.host := rfl
@[simp] theorem halt_schedule : (halt s).schedule = s.schedule := rfl
@[simp] theorem halt_free : (halt s).free = s.free := rfl

/-! ### `pushed` -/

@[simp] theorem pushed_mem (v : Byte) : (s.pushed v).mem = s.mem.write (s.sp - 1).toNat v := rfl
@[simp] theorem pushed_pc (v : Byte) : (s.pushed v).pc = s.pc := rfl
@[simp] theorem pushed_sp (v : Byte) : (s.pushed v).sp = s.sp - 1 := rfl
@[simp] theorem pushed_bp (v : Byte) : (s.pushed v).bp = s.bp := rfl
@[simp] theorem pushed_running (v : Byte) : (s.pushed v).running = s.running := rfl
@[simp] theorem pushed_error (v : Byte) : (s.pushed v).error = s.error := rfl
@[simp] theorem pushed_host (v : Byte) : (s.pushed v).host = s.host := rfl
@[simp] theorem pushed_schedule (v : Byte) : (s.pushed v).schedule = s.schedule := rfl
@[simp] theorem pushed_free (v : Byte) : (s.pushed v).free = s.free := rfl

/-! ### `popped` -/

@[simp] theorem popped_mem : (s.popped).mem = s.mem := rfl
@[simp] theorem popped_pc : (s.popped).pc = s.pc := rfl
@[simp] theorem popped_sp : (s.popped).sp = s.sp + 1 := rfl
@[simp] theorem popped_bp : (s.popped).bp = s.bp := rfl
@[simp] theorem popped_running : (s.popped).running = s.running := rfl
@[simp] theorem popped_error : (s.popped).error = s.error := rfl
@[simp] theorem popped_host : (s.popped).host = s.host := rfl
@[simp] theorem popped_schedule : (s.popped).schedule = s.schedule := rfl
@[simp] theorem popped_free : (s.popped).free = s.free := rfl

/-! ### `pumped` -/

@[simp] theorem pumped_mem : (pumped s).mem = s.mem := rfl
@[simp] theorem pumped_pc : (pumped s).pc = s.pc := rfl
@[simp] theorem pumped_sp : (pumped s).sp = s.sp := rfl
@[simp] theorem pumped_bp : (pumped s).bp = s.bp := rfl
@[simp] theorem pumped_running : (pumped s).running = s.running := rfl
@[simp] theorem pumped_error : (pumped s).error = s.error := rfl
@[simp] theorem pumped_host : (pumped s).host = latchEvents s.host (pumpAnswer s).events := rfl
@[simp] theorem pumped_schedule : (pumped s).schedule = s.schedule.tail := rfl
@[simp] theorem pumped_free : (pumped s).free = s.free := rfl

/-! ### The rest of the small definitions -/

theorem raise_inv {e : ErrorSlot} (h : s.Inv) : (raise e s).Inv where
  memWf := h.memWf
  pcInRange := h.pcInRange
  bpReserved := h.bpReserved
  errorStops := fun _ => rfl
  framebufferWf := h.framebufferWf
  displayWf := h.displayWf

theorem halt_inv (h : s.Inv) : (halt s).Inv := raise_inv s h

end Sys2Proof.Machine
end

