-- ==== Sys2Proof/Laws/Memory.lean ====
section
/-! SUPPORT. Sorted lists, memory and the framebuffer: what a read gives after a write, and that every operation keeps the
canonical form. -/

namespace Sys2Proof.Machine

section Assoc
variable {β : Type}

@[simp] theorem assocFind_insert_same (k : Nat) (v : β) (l : List (Nat × β)) :
    assocFind k (assocInsert k v l) = some v := by
  induction l with
  | nil => simp [assocInsert, assocFind]
  | cons c rest ih =>
    simp only [assocInsert]
    split
    · simp [assocFind]
    · split
      · simp [assocFind]
      · rename_i h; simp [assocFind, h, ih]

theorem assocFind_insert_ne {k j : Nat} (v : β) (l : List (Nat × β)) (h : j ≠ k) :
    assocFind j (assocInsert k v l) = assocFind j l := by
  induction l with
  | nil => simp [assocInsert, assocFind, h]
  | cons c rest ih =>
    simp only [assocInsert]
    split
    · simp [assocFind, h]
    · split
      · rename_i hk; simp [assocFind, h, ← hk]
      · simp [assocFind, ih]

@[simp] theorem assocFind_erase_same (k : Nat) (l : List (Nat × β)) : assocFind k (assocErase k l) = none := by
  induction l with
  | nil => rfl
  | cons c rest ih =>
    simp only [assocErase]
    split
    · exact ih
    · rename_i h; simp [assocFind, h, ih]

theorem assocFind_erase_ne {k j : Nat} (l : List (Nat × β)) (h : j ≠ k) :
    assocFind j (assocErase k l) = assocFind j l := by
  induction l with
  | nil => rfl
  | cons c rest ih =>
    simp only [assocErase]
    split
    · rename_i hk; simp [assocFind, ih, ← hk, h]
    · simp [assocFind, ih]

/-- An entry of a list after an insertion is the new one or an old one. -/
theorem mem_assocInsert {k : Nat} {v : β} {l : List (Nat × β)} {c : Nat × β} (h : c ∈ assocInsert k v l) :
    c = (k, v) ∨ c ∈ l := by
  induction l with
  | nil => simpa [assocInsert] using h
  | cons d rest ih =>
    simp only [assocInsert] at h
    split at h
    · simpa using h
    · split at h
      · simp at h; tauto
      · simp at h; rcases h with h | h
        · exact .inr (by simp [h])
        · rcases ih h with h | h
          · exact .inl h
          · exact .inr (by simp [h])

/-- An entry of a list after an erasure is an old one. -/
theorem mem_of_mem_assocErase {k : Nat} {l : List (Nat × β)} {c : Nat × β} (h : c ∈ assocErase k l) : c ∈ l := by
  induction l with
  | nil => exact h
  | cons d rest ih =>
    simp only [assocErase] at h
    split at h
    · exact List.mem_cons_of_mem _ (ih h)
    · rcases List.mem_cons.1 h with h | h
      · exact h ▸ List.mem_cons_self
      · exact List.mem_cons_of_mem _ (ih h)

theorem assocInsert_rising {k : Nat} {v : β} {l : List (Nat × β)} (h : (l.map Prod.fst).Pairwise (· < ·)) :
    ((assocInsert k v l).map Prod.fst).Pairwise (· < ·) := by
  induction l with
  | nil => simp [assocInsert]
  | cons d rest ih =>
    obtain ⟨hd, hr⟩ := List.pairwise_cons.1 h
    simp only [assocInsert]
    split
    · rename_i hlt
      refine List.pairwise_cons.2 ⟨fun x hx => ?_, h⟩
      rcases List.mem_cons.1 hx with rfl | hx
      · exact hlt
      · exact Nat.lt_trans hlt (hd x hx)
    · split
      · rename_i hk
        exact List.pairwise_cons.2 ⟨fun x hx => hk ▸ hd x hx, hr⟩
      · refine List.pairwise_cons.2 ⟨fun x hx => ?_, ih hr⟩
        obtain ⟨c, hc, rfl⟩ := List.mem_map.1 hx
        rcases mem_assocInsert hc with rfl | hc
        · show d.1 < k; omega
        · exact hd _ (List.mem_map_of_mem hc)

theorem assocErase_rising {k : Nat} {l : List (Nat × β)} (h : (l.map Prod.fst).Pairwise (· < ·)) :
    ((assocErase k l).map Prod.fst).Pairwise (· < ·) := by
  induction l with
  | nil => exact h
  | cons d rest ih =>
    obtain ⟨hd, hr⟩ := List.pairwise_cons.1 h
    simp only [assocErase]
    split
    · exact ih hr
    · refine List.pairwise_cons.2 ⟨fun x hx => ?_, ih hr⟩
      obtain ⟨c, hc, rfl⟩ := List.mem_map.1 hx
      exact hd _ (List.mem_map_of_mem (mem_of_mem_assocErase hc))

end Assoc

/-! ### Memory -/

@[simp] theorem read_nil (a : Nat) : Memory.read [] a = 0#8 := rfl

@[simp] theorem read_write_same (m : Memory) (a : Nat) (v : Byte) : (m.write a v).read a = v := by
  unfold Memory.write Memory.read
  split
  · rename_i h; simp [h]
  · simp

theorem read_write_ne {a b : Nat} (m : Memory) (v : Byte) (h : b ≠ a) : (m.write a v).read b = m.read b := by
  unfold Memory.write Memory.read
  split
  · rw [assocFind_erase_ne _ h]
  · rw [assocFind_insert_ne _ _ h]

/-- A read after a write, at any address. -/
theorem read_write (m : Memory) (a b : Nat) (v : Byte) :
    (m.write a v).read b = if b = a then v else m.read b := by
  split
  · rename_i h; simp [h]
  · rename_i h; exact read_write_ne m v h

/-- A write inside memory keeps the canonical form. -/
theorem write_wf {m : Memory} {a : Nat} {v : Byte} (h : m.wf) (ha : a < Config.memorySize) : (m.write a v).wf := by
  unfold Memory.write
  split
  · exact ⟨assocErase_rising h.1, fun c hc => h.2 c (mem_of_mem_assocErase hc)⟩
  · rename_i hv
    refine ⟨assocInsert_rising h.1, fun c hc => ?_⟩
    rcases mem_assocInsert hc with rfl | hc
    · exact ⟨hv, ha⟩
    · exact h.2 c hc

theorem write_addr_wf {m : Memory} (a : Addr) {v : Byte} (h : m.wf) : (m.write a.toNat v).wf :=
  write_wf h a.isLt

/-- Every address of an image loaded from `a` is at or above `a`, below its end, and holds a byte other than 0. -/
theorem mem_ofBytes {a : Nat} {bs : List Byte} {c : Host.Cell} (h : c ∈ Memory.ofBytes a bs) :
    a ≤ c.1 ∧ c.1 < a + bs.length ∧ c.2 ≠ unlistedByte := by
  induction bs generalizing a with
  | nil => simp [Memory.ofBytes] at h
  | cons v rest ih =>
    simp only [Memory.ofBytes] at h
    split at h
    · obtain ⟨h1, h2, h3⟩ := ih h
      simp only [List.length_cons]
      exact ⟨by omega, by omega, h3⟩
    · rename_i hv
      rcases List.mem_cons.1 h with rfl | h
      · exact ⟨Nat.le_refl _, by simp, hv⟩
      · obtain ⟨h1, h2, h3⟩ := ih h
        simp only [List.length_cons]
        exact ⟨by omega, by omega, h3⟩

/-- An image that fits loads in canonical form. -/
theorem ofBytes_wf {a : Nat} {bs : List Byte} (h : a + bs.length ≤ Config.memorySize) : (Memory.ofBytes a bs).wf := by
  refine ⟨?_, fun c hc => ?_⟩
  · clear h
    induction bs generalizing a with
    | nil => exact List.Pairwise.nil
    | cons v rest ih =>
      simp only [Memory.ofBytes]
      split
      · exact ih
      · refine List.pairwise_cons.2 ⟨fun x hx => ?_, ih⟩
        obtain ⟨c, hc, rfl⟩ := List.mem_map.1 hx
        have := mem_ofBytes hc; omega
  · have := mem_ofBytes hc
    exact ⟨this.2.2, by omega⟩

theorem writeBytes_wf {m : Memory} {a : Nat} {bs : List Byte} (h : m.wf) : (m.writeBytes a bs).wf := by
  induction bs generalizing m a with
  | nil => exact h
  | cons v rest ih =>
    simp only [Memory.writeBytes]
    split
    · rename_i ha; exact ih (write_wf h ha)
    · exact h

/-! ### The framebuffer -/

section Pixels
variable (initial : Nat → Argb)

/-- A pixel's colour after a pixel is set. -/
theorem color_put (p : Pixels) (j k : Nat) (c : Argb) :
    (Pixels.put initial k c p).color initial j = if j = k then c else p.color initial j := by
  unfold Pixels.put Pixels.color
  split
  · rename_i hc
    split
    · rename_i hj; simp [hj, hc]
    · rename_i hj; rw [assocFind_erase_ne _ hj]
  · split
    · rename_i hj; simp [hj]
    · rename_i hj; rw [assocFind_insert_ne _ _ hj]

/-- Setting a pixel of the picture keeps the canonical form. -/
theorem put_wf {p : Pixels} {k : Nat} {c : Argb} (h : p.wf initial) (hk : k < Config.pixelCount) :
    (Pixels.put initial k c p).wf initial := by
  unfold Pixels.put
  split
  · exact ⟨assocErase_rising h.1, fun d hd => h.2 d (mem_of_mem_assocErase hd)⟩
  · rename_i hc
    refine ⟨assocInsert_rising h.1, fun d hd => ?_⟩
    rcases mem_assocInsert hd with rfl | hd
    · exact ⟨hk, hc⟩
    · exact h.2 d hd

end Pixels

/-- The index of a pixel of the picture is below the number of pixels, and only that pixel has it. -/
theorem pixelIndex_lt {x y : Nat} (h : x < Config.screenWidth ∧ y < Config.screenHeight) :
    Config.screenWidth * y + x < Config.pixelCount := by
  simp only [Config.screenWidth, Config.screenHeight, Config.pixelCount] at *; omega

/-- A pixel read after a pixel is set, at any place. -/
theorem fbRead_set (fb : Framebuffer) (x y px py : Nat) (c : Argb) :
    (fb.set x y c).read px py =
      if px = x ∧ py = y ∧ x < Config.screenWidth ∧ y < Config.screenHeight then some c else fb.read px py := by
  unfold Framebuffer.set Framebuffer.read Pixels.read
  by_cases hin : x < Config.screenWidth ∧ y < Config.screenHeight
  · rw [if_pos hin]
    by_cases hp : px < Config.screenWidth ∧ py < Config.screenHeight
    · simp only [if_pos hp, color_put]
      by_cases he : px = x ∧ py = y
      · obtain ⟨rfl, rfl⟩ := he
        simp [hin]
      · rw [if_neg (by simp only [Config.screenWidth] at *; omega), if_neg (by tauto)]
    · simp only [if_neg hp]
      rw [if_neg]
      rintro ⟨rfl, rfl, h⟩
      exact hp h
  · rw [if_neg hin, if_neg (c := px = x ∧ py = y ∧ _) (fun h => hin h.2.2)]

/-- After a `REFRESH` the display shows the framebuffer (R173). -/
@[simp] theorem shown_refreshed (h : HostContext) (fb : Framebuffer) (x y : Nat) :
    HostContext.shown { h with refreshed := some fb } x y = fb.read x y := rfl

theorem fbSet_wf {fb : Framebuffer} {x y : Nat} {c : Argb} (h : fb.wf) : (fb.set x y c).wf := by
  unfold Framebuffer.set
  split
  · rename_i hin; exact put_wf _ h (pixelIndex_lt hin)
  · exact h

theorem fbPaint_wf {fb : Framebuffer} (ps : List ((Nat × Nat) × Argb)) (h : fb.wf) : (fb.paint ps).wf := by
  induction ps with
  | nil => exact h
  | cons p rest ih => exact fbSet_wf ih

end Sys2Proof.Machine
end

