-- ==== Sys2Proof/Laws/Words.lean ====
section
/-! SUPPORT. Words: an address and its two bytes. -/

namespace Sys2Proof

theorem addrOf_toNat (hi lo : Byte) : (addrOf hi lo).toNat = hi.toNat * 256 + lo.toNat := by
  have := hi.isLt; have := lo.isLt
  simp only [addrOf, BitVec.toNat_ofNat]; omega

theorem lowByte_toNat (n : Nat) : (lowByte n).toNat = n % 256 := by
  simp only [lowByte, BitVec.toNat_ofNat]; omega

theorem highByte_toNat (n : Nat) : (highByte n).toNat = n / 256 % 256 := by
  simp only [highByte, BitVec.toNat_ofNat]; omega

/-- The two bytes of an address, low and high, give the address back (R72). -/
@[simp] theorem addrOf_high_low (addr : Addr) : addrOf (highByte addr.toNat) (lowByte addr.toNat) = addr := by
  have := addr.isLt
  apply BitVec.eq_of_toNat_eq
  rw [addrOf_toNat, lowByte_toNat, highByte_toNat]; omega

@[simp] theorem lowByte_addrOf (hi lo : Byte) : lowByte (addrOf hi lo).toNat = lo := by
  have := lo.isLt
  apply BitVec.eq_of_toNat_eq
  rw [lowByte_toNat, addrOf_toNat]; omega

@[simp] theorem highByte_addrOf (hi lo : Byte) : highByte (addrOf hi lo).toNat = hi := by
  have := hi.isLt; have := lo.isLt
  apply BitVec.eq_of_toNat_eq
  rw [highByte_toNat, addrOf_toNat]; omega

/-- Every instruction is well formed: its operands are exactly as wide as their encoding (R72). -/
theorem Instr.wellFormed_all (i : Instr) : i.wellFormed = true := by
  cases i <;> simp [Instr.wellFormed] <;> omega

namespace Machine

theorem addr_toNat_lt (a : Addr) : a.toNat < Config.memorySize := a.isLt

/-- The depth of the stack and its pointer (R26). -/
theorem depth_add_sp (s : State) : s.depth + s.sp.toNat = 0xFFFF := by
  have := s.sp.isLt
  simp only [State.depth]; omega

theorem sp_ne_empty_iff (s : State) : s.sp ≠ 0xFFFF#16 ↔ 1 ≤ s.depth := by
  have h := depth_add_sp s
  constructor
  · intro hne
    by_contra hd
    exact hne (BitVec.eq_of_toNat_eq (by simp; omega))
  · rintro hd rfl_
    rw [rfl_] at h; simp at h; omega

theorem sp_ne_full_iff (s : State) : s.sp ≠ 0x0000#16 ↔ s.depth < 0xFFFF := by
  have h := depth_add_sp s
  constructor
  · intro hne
    by_contra hd
    exact hne (BitVec.eq_of_toNat_eq (by simp; omega))
  · rintro hd rfl_
    rw [rfl_] at h; simp at h; omega

theorem depth_popped {s : State} (h : 1 ≤ s.depth) : s.popped.depth = s.depth - 1 := by
  have h1 := depth_add_sp s
  have h2 : (s.sp + 1).toNat = s.sp.toNat + 1 := by
    rw [BitVec.toNat_add]; simp; omega
  simp only [State.depth, popped_sp, h2]; omega

theorem depth_pushed {s : State} {v : Byte} (h : s.depth < 0xFFFF) : (s.pushed v).depth = s.depth + 1 := by
  have h1 := depth_add_sp s
  have h2 : (s.sp - 1).toNat = s.sp.toNat - 1 := by
    rw [BitVec.toNat_sub]; simp; omega
  simp only [State.depth, pushed_sp, h2]; omega

end Machine

end Sys2Proof
end

