-- ==== Sys2Proof/Laws/PerInstr.lean ====
section
/-! SUPPORT. Facts about every instruction as syntax, one lemma for each constructor. Family `EncodingShape`: the encoding begins
with the opcode byte, one of `0x00..0x21`, and has the length of the instruction's format, 1, 2 or 3 (R70, R76, R79). -/

namespace Sys2Proof.Laws.EncodingShape

/-- The encoding's first byte is a legal opcode, and its length is the length R79 reads from that byte. -/
def Statement (i : Instr) : Prop :=
  (encode i).head? = some (opcodeOf i) ∧ (opcodeOf i).toNat ≤ 0x21 ∧
  (encode i).length =
    if (opcodeOf i).toNat = 0x02 ∨ (opcodeOf i).toNat = 0x21 then 2
    else if (opcodeOf i).toNat = 0x18 ∨ (opcodeOf i).toNat = 0x19 ∨
      (0x1C ≤ (opcodeOf i).toNat ∧ (opcodeOf i).toNat ≤ 0x1F) then 3
    else 1

theorem nop : Statement .nop := ⟨rfl, Nat.le_of_ble_eq_true rfl, rfl⟩
theorem halt : Statement .halt := ⟨rfl, Nat.le_of_ble_eq_true rfl, rfl⟩
theorem push (imm8 : Byte) : Statement (.push imm8) := ⟨rfl, Nat.le_of_ble_eq_true rfl, rfl⟩
theorem pop : Statement .pop := ⟨rfl, Nat.le_of_ble_eq_true rfl, rfl⟩
theorem dup : Statement .dup := ⟨rfl, Nat.le_of_ble_eq_true rfl, rfl⟩
theorem swap : Statement .swap := ⟨rfl, Nat.le_of_ble_eq_true rfl, rfl⟩
theorem add : Statement .add := ⟨rfl, Nat.le_of_ble_eq_true rfl, rfl⟩
theorem sub : Statement .sub := ⟨rfl, Nat.le_of_ble_eq_true rfl, rfl⟩
theorem mul : Statement .mul := ⟨rfl, Nat.le_of_ble_eq_true rfl, rfl⟩
theorem div : Statement .div := ⟨rfl, Nat.le_of_ble_eq_true rfl, rfl⟩
theorem mod : Statement .mod := ⟨rfl, Nat.le_of_ble_eq_true rfl, rfl⟩
theorem neg : Statement .neg := ⟨rfl, Nat.le_of_ble_eq_true rfl, rfl⟩
theorem and : Statement .and := ⟨rfl, Nat.le_of_ble_eq_true rfl, rfl⟩
theorem or : Statement .or := ⟨rfl, Nat.le_of_ble_eq_true rfl, rfl⟩
theorem xor : Statement .xor := ⟨rfl, Nat.le_of_ble_eq_true rfl, rfl⟩
theorem not : Statement .not := ⟨rfl, Nat.le_of_ble_eq_true rfl, rfl⟩
theorem shl : Statement .shl := ⟨rfl, Nat.le_of_ble_eq_true rfl, rfl⟩
theorem shr : Statement .shr := ⟨rfl, Nat.le_of_ble_eq_true rfl, rfl⟩
theorem eq : Statement .eq := ⟨rfl, Nat.le_of_ble_eq_true rfl, rfl⟩
theorem neq : Statement .neq := ⟨rfl, Nat.le_of_ble_eq_true rfl, rfl⟩
theorem gt : Statement .gt := ⟨rfl, Nat.le_of_ble_eq_true rfl, rfl⟩
theorem lt : Statement .lt := ⟨rfl, Nat.le_of_ble_eq_true rfl, rfl⟩
theorem gte : Statement .gte := ⟨rfl, Nat.le_of_ble_eq_true rfl, rfl⟩
theorem lte : Statement .lte := ⟨rfl, Nat.le_of_ble_eq_true rfl, rfl⟩
theorem load (addr : Addr) : Statement (.load addr) := ⟨rfl, Nat.le_of_ble_eq_true rfl, rfl⟩
theorem store (addr : Addr) : Statement (.store addr) := ⟨rfl, Nat.le_of_ble_eq_true rfl, rfl⟩
theorem loadInd : Statement .loadInd := ⟨rfl, Nat.le_of_ble_eq_true rfl, rfl⟩
theorem storeInd : Statement .storeInd := ⟨rfl, Nat.le_of_ble_eq_true rfl, rfl⟩
theorem jmp (addr : Addr) : Statement (.jmp addr) := ⟨rfl, Nat.le_of_ble_eq_true rfl, rfl⟩
theorem jz (addr : Addr) : Statement (.jz addr) := ⟨rfl, Nat.le_of_ble_eq_true rfl, rfl⟩
theorem jnz (addr : Addr) : Statement (.jnz addr) := ⟨rfl, Nat.le_of_ble_eq_true rfl, rfl⟩
theorem call (addr : Addr) : Statement (.call addr) := ⟨rfl, Nat.le_of_ble_eq_true rfl, rfl⟩
theorem ret : Statement .ret := ⟨rfl, Nat.le_of_ble_eq_true rfl, rfl⟩
theorem io (op8 : Byte) : Statement (.io op8) := ⟨rfl, Nat.le_of_ble_eq_true rfl, rfl⟩

end Sys2Proof.Laws.EncodingShape
end

