-- ==== Sys2Proof/Laws/Primitives.lean ====
section
/-! SUPPORT. The shared operations: everything each of them can do, said once. -/

namespace Sys2Proof.Machine

theorem pop_empty {s : State} {rest : Byte → State → Result} (h : s.sp = 0xFFFF#16) :
    pop s rest = .next (raise .stackUnderflow s) := by simp [pop, h]

theorem pop_ok {s : State} {rest : Byte → State → Result} (h : s.sp ≠ 0xFFFF#16) :
    pop s rest = rest (s.byteAt s.sp) s.popped := by simp [pop, h]

theorem pushThen_full {s : State} {v : Byte} {rest : State → Result} (h : s.sp = 0x0000#16) :
    pushThen v s rest = .next (raise .stackOverflow s) := by simp [pushThen, h]

theorem pushThen_ok {s : State} {v : Byte} {rest : State → Result} (h : s.sp ≠ 0x0000#16) :
    pushThen v s rest = rest (s.pushed v) := by simp [pushThen, h]

theorem push_full {s : State} {v : Byte} (h : s.sp = 0x0000#16) : push v s = .next (raise .stackOverflow s) :=
  pushThen_full h

theorem push_ok {s : State} {v : Byte} (h : s.sp ≠ 0x0000#16) : push v s = .next (s.pushed v) := pushThen_ok h

/-- Everything a pop can do: an underflow, or the rest of the instruction on the popped byte. -/
theorem pop_cases {s t : State} {rest : Byte → State → Result} (h : pop s rest = .next t) :
    (s.sp = 0xFFFF#16 ∧ t = raise .stackUnderflow s) ∨ (s.sp ≠ 0xFFFF#16 ∧ rest (s.byteAt s.sp) s.popped = .next t) := by
  by_cases hs : s.sp = 0xFFFF#16
  · rw [pop_empty hs] at h; exact .inl ⟨hs, by cases h; rfl⟩
  · rw [pop_ok hs] at h; exact .inr ⟨hs, h⟩

/-- Everything a push can do: an overflow, or the rest of the instruction on the pushed state. -/
theorem pushThen_cases {s t : State} {v : Byte} {rest : State → Result} (h : pushThen v s rest = .next t) :
    (s.sp = 0x0000#16 ∧ t = raise .stackOverflow s) ∨ (s.sp ≠ 0x0000#16 ∧ rest (s.pushed v) = .next t) := by
  by_cases hs : s.sp = 0x0000#16
  · rw [pushThen_full hs] at h; exact .inl ⟨hs, by cases h; rfl⟩
  · rw [pushThen_ok hs] at h; exact .inr ⟨hs, h⟩

/-- Everything a final push can do. -/
theorem push_cases {s t : State} {v : Byte} (h : push v s = .next t) :
    (s.sp = 0x0000#16 ∧ t = raise .stackOverflow s) ∨ (s.sp ≠ 0x0000#16 ∧ t = s.pushed v) := by
  rcases pushThen_cases h with h | ⟨hs, h⟩
  · exact .inl h
  · exact .inr ⟨hs, by cases h; rfl⟩

theorem fetchByte_ok {s : State} {rest : Byte → State → Result} (h : s.pc ≤ 0xFFFF) :
    fetchByte s rest = rest (s.mem.read s.pc) (s.withPc (s.pc + 1)) := by
  unfold fetchByte; rw [if_neg (by omega)]

theorem fetchByte_past {s : State} {rest : Byte → State → Result} (h : 0xFFFF < s.pc) :
    fetchByte s rest = .next (raise .invalidAddress s) := by
  unfold fetchByte; rw [if_pos h]

theorem peekImm16_ok {s : State} {rest : Addr → State → Result} (h : s.pc + 1 ≤ 0xFFFF) :
    peekImm16 s rest = rest (addrOf (s.mem.read (s.pc + 1)) (s.mem.read s.pc)) s := by
  unfold peekImm16; rw [if_neg (by omega)]

theorem peekImm16_past {s : State} {rest : Addr → State → Result} (h : 0xFFFF < s.pc + 1) :
    peekImm16 s rest = .next (raise .invalidAddress s) := by
  unfold peekImm16; rw [if_pos h]

theorem fetchImm16_ok {s : State} {rest : Addr → State → Result} (h : s.pc + 1 ≤ 0xFFFF) :
    fetchImm16 s rest =
      rest (addrOf (s.mem.read (s.pc + 1)) (s.mem.read s.pc)) (s.withPc (s.pc + 2)) := peekImm16_ok h

theorem fetchImm16_past {s : State} {rest : Addr → State → Result} (h : 0xFFFF < s.pc + 1) :
    fetchImm16 s rest = .next (raise .invalidAddress s) := peekImm16_past h

/-- Everything an opcode or 1-byte operand fetch can do. -/
theorem fetchByte_cases {s t : State} {rest : Byte → State → Result} (h : fetchByte s rest = .next t) :
    (0xFFFF < s.pc ∧ t = raise .invalidAddress s) ∨
    (s.pc ≤ 0xFFFF ∧ rest (s.mem.read s.pc) (s.withPc (s.pc + 1)) = .next t) := by
  unfold fetchByte at h
  split at h
  · rename_i hp; exact .inl ⟨hp, by cases h; rfl⟩
  · rename_i hp; exact .inr ⟨by omega, h⟩

/-- Everything a 2-byte operand read can do. -/
theorem peekImm16_cases {s t : State} {rest : Addr → State → Result} (h : peekImm16 s rest = .next t) :
    (0xFFFF < s.pc + 1 ∧ t = raise .invalidAddress s) ∨
    (s.pc + 1 ≤ 0xFFFF ∧ rest (addrOf (s.mem.read (s.pc + 1)) (s.mem.read s.pc)) s = .next t) := by
  unfold peekImm16 at h
  split at h
  · rename_i hp; exact .inl ⟨hp, by cases h; rfl⟩
  · rename_i hp; exact .inr ⟨by omega, h⟩

/-! ### The invariant is kept by the primitives -/

theorem withPc_inv {s : State} {n : Nat} (h : s.Inv) (hn : n ≤ Config.memorySize) : (s.withPc n).Inv where
  memWf := h.memWf
  pcInRange := hn
  bpReserved := h.bpReserved
  errorStops := h.errorStops
  framebufferWf := h.framebufferWf
  displayWf := h.displayWf

theorem withByte_inv {s : State} {a : Addr} {v : Byte} (h : s.Inv) : (s.withByte a v).Inv where
  memWf := write_addr_wf a h.memWf
  pcInRange := h.pcInRange
  bpReserved := h.bpReserved
  errorStops := h.errorStops
  framebufferWf := h.framebufferWf
  displayWf := h.displayWf

theorem withSp_inv {s : State} {a : Addr} (h : s.Inv) : (s.withSp a).Inv where
  memWf := h.memWf
  pcInRange := h.pcInRange
  bpReserved := h.bpReserved
  errorStops := h.errorStops
  framebufferWf := h.framebufferWf
  displayWf := h.displayWf

theorem pushed_inv {s : State} {v : Byte} (h : s.Inv) : (s.pushed v).Inv := withByte_inv (withSp_inv h)

theorem popped_inv {s : State} (h : s.Inv) : s.popped.Inv := withSp_inv h

theorem withHost_inv {s : State} {c : HostContext} (h : s.Inv) (hf : c.framebuffer.wf)
    (hd : ∀ fb, c.refreshed = some fb → fb.wf) : (s.withHost c).Inv where
  memWf := h.memWf
  pcInRange := h.pcInRange
  bpReserved := h.bpReserved
  errorStops := h.errorStops
  framebufferWf := hf
  displayWf := hd

/-! ### The host stack port -/

/-- Everything `HPop` can do (R48): nothing, a recorded underflow, or a pop. -/
theorem hPop_cases (s : State) :
    (s.error ≠ .ok ∧ hPop s = (0#8, s)) ∨
    (s.error = .ok ∧ s.sp = 0xFFFF#16 ∧ hPop s = (0#8, raise .stackUnderflow s)) ∨
    (s.error = .ok ∧ s.sp ≠ 0xFFFF#16 ∧ hPop s = (s.byteAt s.sp, s.popped)) := by
  by_cases he : s.error = .ok
  · by_cases hs : s.sp = 0xFFFF#16
    · exact .inr (.inl ⟨he, hs, by simp [hPop, he, hs]⟩)
    · exact .inr (.inr ⟨he, hs, by simp [hPop, he, hs]⟩)
  · exact .inl ⟨he, by simp [hPop, he]⟩

/-- Everything `HPush` can do (R48): nothing, a recorded overflow, or a push. -/
theorem hPush_cases (v : Byte) (s : State) :
    (s.error ≠ .ok ∧ hPush v s = s) ∨
    (s.error = .ok ∧ s.sp = 0x0000#16 ∧ hPush v s = raise .stackOverflow s) ∨
    (s.error = .ok ∧ s.sp ≠ 0x0000#16 ∧ hPush v s = s.pushed v) := by
  by_cases he : s.error = .ok
  · by_cases hs : s.sp = 0x0000#16
    · exact .inr (.inl ⟨he, hs, by simp [hPush, he, hs]⟩)
    · exact .inr (.inr ⟨he, hs, by simp [hPush, he, hs]⟩)
  · exact .inl ⟨he, by simp [hPush, he]⟩

/-- A pop by the host leaves the host context, the schedule, the counter and memory. -/
theorem hPop_frame (s : State) :
    (hPop s).2.host = s.host ∧ (hPop s).2.schedule = s.schedule ∧ (hPop s).2.free = s.free ∧ (hPop s).2.mem = s.mem ∧
    (hPop s).2.pc = s.pc ∧ (hPop s).2.bp = s.bp := by
  rcases hPop_cases s with ⟨_, h⟩ | ⟨_, _, h⟩ | ⟨_, _, h⟩ <;> simp [h]

/-- A push by the host leaves the host context, the schedule, the counter, `PC` and `BP`. -/
theorem hPush_frame (v : Byte) (s : State) :
    (hPush v s).host = s.host ∧ (hPush v s).schedule = s.schedule ∧ (hPush v s).free = s.free ∧
    (hPush v s).pc = s.pc ∧ (hPush v s).bp = s.bp := by
  rcases hPush_cases v s with ⟨_, h⟩ | ⟨_, _, h⟩ | ⟨_, _, h⟩ <;> simp [h]

theorem hPop_inv {s : State} (h : s.Inv) : (hPop s).2.Inv := by
  rcases hPop_cases s with ⟨_, e⟩ | ⟨_, _, e⟩ | ⟨_, _, e⟩ <;> rw [e]
  · exact h
  · exact raise_inv s h
  · exact popped_inv h

theorem hPush_inv {s : State} {v : Byte} (h : s.Inv) : (hPush v s).Inv := by
  rcases hPush_cases v s with ⟨_, e⟩ | ⟨_, _, e⟩ | ⟨_, _, e⟩ <;> rw [e]
  · exact h
  · exact raise_inv s h
  · exact pushed_inv h

/-- What the host writes and draws leaves the block (R60). -/
theorem emit_block (bytes : List Byte) (s : State) : SameBlock (emit bytes s) s := by
  unfold emit; split <;> simp [SameBlock]

theorem draw_block (ps : List ((Nat × Nat) × Argb)) (s : State) : SameBlock (draw ps s) s := by
  unfold draw; split <;> simp [SameBlock]

/-- Latching events changes the input part of the host context only (R182). -/
theorem latchEvents_outputs (es : List InputEvent) (h : HostContext) :
    (latchEvents h es).framebuffer = h.framebuffer ∧ (latchEvents h es).refreshed = h.refreshed ∧
    (latchEvents h es).stdout = h.stdout ∧ (latchEvents h es).waiting = h.waiting := by
  induction es generalizing h with
  | nil => simp [latchEvents]
  | cons e rest ih => cases e <;> simp [latchEvents, latchEvent, ih]

/-- Each flag after a pump is set if it was set before or the pump latched an event of its kind (R182). -/
theorem latchEvents_flags (es : List InputEvent) (h : HostContext) :
    ((latchEvents h es).keyAvailable = true ↔ h.keyAvailable = true ∨ ∃ b, InputEvent.key b ∈ es) ∧
    ((latchEvents h es).mouseEvent = true ↔ h.mouseEvent = true ∨ ∃ x y mask, InputEvent.mouse x y mask ∈ es) := by
  induction es generalizing h with
  | nil => simp [latchEvents]
  | cons e rest ih => cases e <;> simp [latchEvents, latchEvent, ih, exists_or]

end Sys2Proof.Machine
end

