-- ==== Sys2Proof/Laws/Shapes.lean ====
section
/-! SUPPORT. The stack pointer by the depth of the stack, and the shapes the meanings are made of: two pops, the push after
them, a unary operation. -/

namespace Sys2Proof.Machine

theorem sp_succ_toNat {s : State} (h : 1 ≤ s.depth) : (s.sp + 1).toNat = s.sp.toNat + 1 := by
  have := depth_add_sp s
  rw [BitVec.toNat_add]; simp; omega

theorem sp_pred_toNat {s : State} (h : s.depth < 0xFFFF) : (s.sp - 1).toNat = s.sp.toNat - 1 := by
  have := depth_add_sp s
  rw [BitVec.toNat_sub]; simp; omega

theorem sp_ne_empty {s : State} (h : 1 ≤ s.depth) : s.sp ≠ 0xFFFF#16 := (sp_ne_empty_iff s).2 h

theorem sp_ne_full {s : State} (h : s.depth < 0xFFFF) : s.sp ≠ 0x0000#16 := (sp_ne_full_iff s).2 h

theorem sp_eq_empty {s : State} (h : s.depth = 0) : s.sp = 0xFFFF#16 := by
  by_contra hne
  have := (sp_ne_empty_iff s).1 hne
  omega

theorem sp_eq_full {s : State} (h : s.depth = 0xFFFF) : s.sp = 0x0000#16 := by
  by_contra hne
  have := (sp_ne_full_iff s).1 hne
  omega

theorem sp_succ_of_one {s : State} (h : s.depth = 1) : s.sp + 1 = 0xFFFF#16 := by
  have := depth_add_sp s
  apply BitVec.eq_of_toNat_eq
  rw [sp_succ_toNat (by omega)]; simp; omega

theorem add_two_sub_one (a : Addr) : a + 2 - 1 = a + 1 := by bv_omega

/-- A final push on a stack that is not full, field by field. -/
theorem push_next {s : State} (h : s.depth < 0xFFFF) (v : Byte) :
    push v s = .next { s with sp := s.sp - 1, mem := s.mem.write (s.sp.toNat - 1) v } := by
  rw [push_ok (sp_ne_full h)]; simp only [State.pushed, State.withByte, State.withSp, sp_pred_toNat h]

/-- Two pops on a stack of at least two bytes (R110): the top is the second argument. -/
theorem popTwo_ok {s : State} (h : 2 ≤ s.depth) (rest : Byte → Byte → State → Result) :
    popTwo s rest = rest (s.mem.read (s.sp.toNat + 1)) (s.mem.read s.sp.toNat) { s with sp := s.sp + 2 } := by
  have hd := depth_popped (s := s) (by omega)
  have h2 := sp_succ_toNat (s := s) (by omega)
  unfold popTwo
  rw [pop_ok (sp_ne_empty (by omega)), pop_ok (sp_ne_empty (by omega))]
  simp only [State.byteAt, popped_sp, popped_mem, h2]
  congr 1
  simp [State.popped, State.withSp, BitVec.add_assoc]

/-- Two pops on a stack of one byte: the first stands (R203). -/
theorem popTwo_one {s : State} (h : s.depth = 1) (rest : Byte → Byte → State → Result) :
    popTwo s rest = .next (raise .stackUnderflow { s with sp := 0xFFFF#16 }) := by
  unfold popTwo
  have hd := depth_popped (s := s) (by omega)
  rw [pop_ok (sp_ne_empty (by omega)), pop_empty (sp_eq_empty (by omega))]
  have e := sp_succ_of_one h
  simp only [raise, State.popped, State.withSp, e]

/-- Two pops on an empty stack. -/
theorem popTwo_zero {s : State} (h : s.depth = 0) (rest : Byte → Byte → State → Result) :
    popTwo s rest = .next (raise .stackUnderflow s) := by
  unfold popTwo
  rw [pop_empty (sp_eq_empty (by omega))]

/-- The push after two pops, field by field. -/
theorem push_after_popTwo {s : State} (h : 2 ≤ s.depth) (v : Byte) :
    push v { s with sp := s.sp + 2 } =
      .next { s with sp := s.sp + 1, mem := s.mem.write (s.sp.toNat + 1) v } := by
  have h1 := depth_add_sp s
  have h2 := sp_succ_toNat (s := s) (by omega)
  rw [push_ok]
  · simp only [State.pushed, State.withByte, State.withSp, add_two_sub_one, h2]
  · intro h0
    have := congrArg BitVec.toNat h0
    simp at this; omega

/-- A pop and the push after it leave `SP` and write where the popped byte was. -/
theorem popped_pushed (s : State) (v : Byte) :
    s.popped.pushed v = { s with mem := s.mem.write s.sp.toNat v } := by
  simp [State.pushed, State.popped, State.withByte, State.withSp]

/-- A unary operation on a stack that is not empty. -/
theorem unary_ok {s : State} (f : Byte → Byte) (h : 1 ≤ s.depth) :
    unary f s = .next { s with mem := s.mem.write s.sp.toNat (f (s.mem.read s.sp.toNat)) } := by
  have hd := depth_popped h
  have hs := depth_add_sp s
  unfold unary
  rw [pop_ok (sp_ne_empty h), push_ok (sp_ne_full (by omega)), popped_pushed]
  rfl

/-- A popped address is two popped bytes, the low byte on top (R142, R143). -/
theorem popAddr_eq_popTwo (s : State) (rest : Addr → State → Result) :
    popAddr s rest = popTwo s fun hi lo s => rest (addrOf hi lo) s := rfl

/-- The bytes a fetch at `a` can see (R58). -/
theorem bytesFrom_get (m : Memory) (n : Nat) {a k : Nat} (hk : k < n) (ha : a + k < Config.memorySize) :
    (m.bytesFrom a n)[k]? = some (m.read (a + k)) := by
  induction n generalizing a k with
  | zero => omega
  | succ n ih =>
    unfold Memory.bytesFrom
    rw [if_pos (by omega)]
    cases k with
    | zero => rfl
    | succ k => rw [List.getElem?_cons_succ, ih (by omega) (by omega)]; congr 2; omega

end Sys2Proof.Machine
end

