-- ==== Sys2Proof/Laws/Step.lean ====
section
/-! SUPPORT. The fetch and the step: everything each of them can do, said once. -/

namespace Sys2Proof.Machine

/-- Everything an operand fetch and the instruction after it can do: a fault that changes `error` and `running` alone, or the
instruction, at most two bytes further on and inside `0..65536`. -/
theorem operandThen_cases {f : OpFormat} {s t : State} {run : Instr → State → Result} (hpc : s.pc ≤ Config.memorySize)
    (h : operandThen f s run = .next t) :
    (∃ e, t = raise e s) ∨ (∃ i n, n ≤ Config.memorySize ∧ run i (s.withPc n) = .next t) := by
  cases f with
  | plain i => exact .inr ⟨i, s.pc, hpc, h⟩
  | imm8 mk =>
    simp only [operandThen] at h
    rcases fetchByte_cases h with ⟨_, rfl⟩ | ⟨hp, h⟩
    · exact .inl ⟨_, rfl⟩
    · exact .inr ⟨_, _, by show s.pc + 1 ≤ 65536; omega, h⟩
  | addr16 mk =>
    simp only [operandThen, fetchImm16] at h
    rcases peekImm16_cases h with ⟨_, rfl⟩ | ⟨hp, h⟩
    · exact .inl ⟨_, rfl⟩
    · exact .inr ⟨_, _, by show s.pc + 2 ≤ 65536; omega, h⟩
  | peek16 mk =>
    simp only [operandThen] at h
    rcases peekImm16_cases h with ⟨_, rfl⟩ | ⟨hp, h⟩
    · exact .inl ⟨_, rfl⟩
    · exact .inr ⟨_, _, hpc, h⟩
  | illegal =>
    refine .inl ⟨.invalidOpcode, ?_⟩
    simp only [operandThen] at h
    cases h; rfl

/-- Everything one instruction step can do: a fetch fault, or an instruction run from the state after its fetch. -/
theorem instructionStep_cases {s t : State} (h : instructionStep s = .next t) :
    (∃ e, t = raise e s) ∨ (∃ e, s.pc < Config.memorySize ∧ t = raise e (s.withPc (s.pc + 1))) ∨
    (∃ i n, s.pc < Config.memorySize ∧ n ≤ Config.memorySize ∧ exec i (s.withPc n) = .next t) := by
  unfold instructionStep fetchThen at h
  rcases fetchByte_cases h with ⟨_, rfl⟩ | ⟨hp, h⟩
  · exact .inl ⟨_, rfl⟩
  · have hlt : s.pc < Config.memorySize := by show s.pc < 65536; omega
    rcases operandThen_cases (by show s.pc + 1 ≤ 65536; omega) h with ⟨e, rfl⟩ | ⟨i, n, hn, h⟩
    · exact .inr (.inl ⟨e, hlt, rfl⟩)
    · exact .inr (.inr ⟨i, n, hlt, hn, h⟩)

/-- Everything a step can do (R40, R44). -/
theorem step_cases {s t : State} (h : step s = .next t) :
    (s.running = false ∧ t = s) ∨
    (s.running = true ∧ (pumpAnswer s).shutdown = true ∧ t = { pumped s with running := false }) ∨
    (s.running = true ∧ (pumpAnswer s).shutdown = false ∧ hostWait (pumped s) = true ∧ t = pumped s) ∨
    (s.running = true ∧ (pumpAnswer s).shutdown = false ∧ hostWait (pumped s) = false ∧
      instructionStep (pumped s) = .next t) := by
  unfold step iteration at h
  by_cases hr : s.running = true
  · rw [if_pos hr] at h
    by_cases hs : (pumpAnswer s).shutdown = true
    · rw [if_pos hs] at h; cases h; exact .inr (.inl ⟨hr, hs, rfl⟩)
    · rw [if_neg hs] at h
      by_cases hw : hostWait (pumped s) = true
      · rw [if_pos hw] at h; cases h
        exact .inr (.inr (.inl ⟨hr, by simpa using hs, hw, rfl⟩))
      · rw [if_neg hw] at h
        exact .inr (.inr (.inr ⟨hr, by simpa using hs, by simpa using hw, h⟩))
  · rw [if_neg hr] at h; cases h; exact .inl ⟨by simpa using hr, rfl⟩

/-- A stopped block's step. -/
theorem step_stopped {s : State} (h : s.running = false) : step s = .next s := by
  unfold step iteration; simp [h]

/-- A step that fetches. -/
theorem step_fetches {s : State} (hr : s.running = true) (hs : (pumpAnswer s).shutdown = false)
    (hw : hostWait (pumped s) = false) : step s = instructionStep (pumped s) := by
  unfold step iteration; simp [hr, hs, hw]

end Sys2Proof.Machine
end

