-- ==== Sys2Proof/Tests/Slice0.lean ====
section
/-! SUPPORT. The model's own tests. Expected results are the rows of spec/95_test_vectors.md, named by their number (S1, A1, …),
or hand calculation from the rule named; none is the model's own answer. The last part holds a witness for the hypotheses of
each obligation that has any. -/

namespace Sys2Proof.Tests

open Sys2Proof Sys2Proof.Machine Sys2Proof.Spec

/-- After `INIT`, with `code` at `p`, `PC` there, and the stack holding `stack`, top first. -/
def start (p : Nat) (code stack : List Byte) : State :=
  { State.reset with
    pc := p
    sp := BitVec.ofNat 16 (0xFFFF - stack.length)
    mem := Memory.writeBytes (Memory.ofBytes (0xFFFF - stack.length) stack) p code }

/-- `start` with the stack pointer at `sp`, whatever memory holds above it. -/
def startAt (p : Nat) (code : List Byte) (sp : Addr) : State := { start p code [] with sp := sp }

/-- One more byte in memory. -/
def poke (a : Nat) (v : Byte) (s : State) : State := { s with mem := s.mem.write a v }

/-- One look at a next state. -/
def look {α : Type} (f : State → α) : Result → Option α
  | .next t => some (f t)
  | .fault _ => none
  | .refused _ => none

/-- The block but for memory: `error`, `running`, `PC`, `SP`, and the top `k` bytes of the stack, top first. -/
def seen (k : Nat) : Result → Option (ErrorSlot × Bool × Nat × Nat × List Nat) :=
  look fun t => (t.error, t.running, t.pc, t.sp.toNat, (List.range k).map fun j => (t.mem.read (t.sp.toNat + j)).toNat)

/-- One byte of memory after a step. -/
def byteAfter (a : Nat) : Result → Option Nat := look fun t => (t.mem.read a).toNat

/-! ### Well-formedness: each check refuses an ill-formed term -/

theorem test_image_too_long : imageWellFormed (List.replicate 65537 0#8) = false := by
  rw [imageWellFormed, List.length_replicate]; decide

theorem test_image_full : imageWellFormed (List.replicate 65536 0#8) = true := by
  rw [imageWellFormed, List.length_replicate]; decide

/-- Empty, a digit first, a character that is none of `[A-Za-z0-9_]`, 64 characters (R86). -/
theorem test_label_refused :
    labelWellFormed [] = false ∧ labelWellFormed "1a".toList = false ∧ labelWellFormed "a-b".toList = false ∧
    labelWellFormed (List.replicate 64 'a') = false := by decide

theorem test_label_accepted :
    labelWellFormed "_x9".toList = true ∧ labelWellFormed (List.replicate 63 'Z') = true := by decide

/-- Keys that do not rise, a listed 0, an address past the top. -/
theorem test_memory_refused :
    ¬Memory.wf [(2, 1#8), (1, 1#8)] ∧ ¬Memory.wf [(1, 0#8)] ∧ ¬Memory.wf [(65536, 1#8)] ∧ ¬Memory.wf [(1, 1#8), (1, 2#8)] := by
  decide

theorem test_framebuffer_refused : ¬Framebuffer.wf [(2, 0#32), (1, 0#32)] ∧ ¬Framebuffer.wf [(76800, 0#32)] := by decide

/-- A listed pixel with its initial colour. -/
theorem test_framebuffer_not_canonical : ¬Framebuffer.wf [(0, Config.initialPixel 0)] := fun h =>
  (h.2 (0, Config.initialPixel 0) List.mem_cons_self).2 rfl

/-- The operand checks of `Instr.wellFormed` refuse nothing: an operand is a bit vector of the encoded width (R72). -/
theorem test_operands_at_the_edge :
    (Instr.push 0xFF#8).wellFormed = true ∧ (Instr.jmp 0xFFFF#16).wellFormed = true := by decide

/-! ### Decoding: a word written out from the spec for every constructor (R71, R72, R76) -/


/-- The words of format `N`. -/
def plainWords : List (Byte × Instr) :=
  [(0x00#8, .nop), (0x01#8, .halt), (0x03#8, .pop), (0x04#8, .dup), (0x05#8, .swap), (0x06#8, .add), (0x07#8, .sub),
   (0x08#8, .mul), (0x09#8, .div), (0x0A#8, .mod), (0x0B#8, .neg), (0x0C#8, .and), (0x0D#8, .or), (0x0E#8, .xor),
   (0x0F#8, .not), (0x10#8, .shl), (0x11#8, .shr), (0x12#8, .eq), (0x13#8, .neq), (0x14#8, .gt), (0x15#8, .lt),
   (0x16#8, .gte), (0x17#8, .lte), (0x1A#8, .loadInd), (0x1B#8, .storeInd), (0x20#8, .ret)]

/-- Words with an operand. -/
def operandWords : List (List Byte × Instr) :=
  [([0x02#8, 0x80#8], .push 0x80#8), ([0x18#8, 0x34#8, 0x12#8], .load 0x1234#16),
   ([0x19#8, 0x01#8, 0x80#8], .store 0x8001#16), ([0x1C#8, 0x05#8, 0x00#8], .jmp 0x0005#16),
   ([0x1D#8, 0x1A#8, 0x00#8], .jz 0x001A#16), ([0x1E#8, 0xFF#8, 0x7F#8], .jnz 0x7FFF#16),
   ([0x1F#8, 0xFE#8, 0xFF#8], .call 0xFFFE#16), ([0x21#8, 0x25#8], .io 0x25#8)]

theorem test_decode_plain_words : ∀ row ∈ plainWords, decode [row.1] = .ok row.2 [] := by decide

theorem test_decode_operand_words : ∀ row ∈ operandWords, decode row.1 = .ok row.2 [] := by decide

theorem test_encode_words :
    (∀ row ∈ plainWords, encode row.2 = [row.1]) ∧ ∀ row ∈ operandWords, encode row.2 = row.1 := by decide

/-- The words as spec/opcode_table.json numbers them: the first byte is the least significant. -/
theorem test_decode_table_words :
    decodeTableWord 8 0x06 = some .add ∧ decodeTableWord 16 0x0502 = some (.push 0x05#8) ∧
    decodeTableWord 24 0x123418 = some (.load 0x1234#16) ∧ decodeTableWord 8 0x1C = some (.jmp 0x0000#16) ∧
    decodeTableWord 8 0x22 = none := by decide

/-- X1, X2: illegal opcodes; a missing operand; no byte. -/
theorem test_decode_rejects :
    decode [0x22#8, 0x01#8] = .illegalOpcode 0x22#8 ∧ decode [0xFF#8] = .illegalOpcode 0xFF#8 ∧
    decode [0x02#8] = .truncated ∧ decode [0x18#8, 0x01#8] = .truncated ∧ decode [] = .noByte := by decide

/-- X6: an illegal byte is harmless as an operand. -/
theorem test_illegal_byte_as_operand :
    seen 1 (step (start 0 [0x02#8, 0x22#8] [])) = some (.ok, true, 2, 0xFFFE, [0x22]) := by decide

/-! ### One step per instruction -/

/-- S1. -/
theorem test_nop :
    seen 0 (step (start 0 [0x00#8] [])) = some (.ok, true, 1, 0xFFFF, []) := by decide

/-- S2. -/
theorem test_nop_at_top :
    seen 0 (step (start 0xFFFF [0x00#8] [])) = some (.ok, true, 0x10000, 0xFFFF, []) := by decide

/-- Y1. -/
theorem test_halt :
    seen 0 (step (start 0 [0x01#8] [])) = some (.halt, false, 1, 0xFFFF, []) := by decide

/-- Y2. -/
theorem test_halt_at_top :
    seen 0 (step (start 0xFFFF [0x01#8] [])) = some (.halt, false, 0x10000, 0xFFFF, []) := by decide

/-- S4. -/
theorem test_push :
    seen 1 (step (start 0 [0x02#8, 0xFF#8] [])) = some (.ok, true, 2, 0xFFFE, [0xFF]) := by decide

/-- S6. -/
theorem test_push_full :
    seen 0 (step (startAt 0x0100 [0x02#8, 0x09#8] 0x0000#16)) = some (.stackOverflow, false, 0x0102, 0, []) := by decide

/-- S8. -/
theorem test_pop :
    seen 0 (step (start 0 [0x03#8] [0x07#8])) = some (.ok, true, 1, 0xFFFF, []) := by decide

/-- S9. -/
theorem test_pop_empty :
    seen 0 (step (start 0 [0x03#8] [])) = some (.stackUnderflow, false, 1, 0xFFFF, []) := by decide

/-- S10. -/
theorem test_dup :
    seen 2 (step (start 0 [0x04#8] [0x09#8])) = some (.ok, true, 1, 0xFFFD, [0x09, 0x09]) := by decide

/-- S12. -/
theorem test_dup_full :
    seen 1 (step (poke 0 0x09#8 (startAt 0x0100 [0x04#8] 0x0000#16))) = some (.stackOverflow, false, 0x0101, 0, [0x09]) := by decide

/-- S13. -/
theorem test_swap :
    seen 2 (step (start 0 [0x05#8] [0x02#8, 0x01#8])) = some (.ok, true, 1, 0xFFFD, [0x01, 0x02]) := by decide

/-- S16. -/
theorem test_swap_full :
    seen 2 (step (poke 1 0x02#8 (poke 0 0x01#8 (startAt 0x0100 [0x05#8] 0x0000#16)))) = some (.ok, true, 0x0101, 0, [0x02, 0x01]) := by decide

/-- A1. -/
theorem test_add_wraps :
    seen 1 (step (start 0 [0x06#8] [0x64#8, 0xC8#8])) = some (.ok, true, 1, 0xFFFE, [0x2C]) := by decide

/-- A5. -/
theorem test_sub_order :
    seen 1 (step (start 0 [0x07#8] [0x05#8, 0x03#8])) = some (.ok, true, 1, 0xFFFE, [0xFE]) := by decide

/-- A7. -/
theorem test_mul_low_byte :
    seen 1 (step (start 0 [0x08#8] [0xFF#8, 0xFF#8])) = some (.ok, true, 1, 0xFFFE, [0x01]) := by decide

/-- A10. -/
theorem test_div :
    seen 1 (step (start 0 [0x09#8] [0x02#8, 0x07#8])) = some (.ok, true, 1, 0xFFFE, [0x03]) := by decide

/-- A18. -/
theorem test_mod :
    seen 1 (step (start 0 [0x0A#8] [0x07#8, 0xC8#8])) = some (.ok, true, 1, 0xFFFE, [0x04]) := by decide

/-- A22. -/
theorem test_neg :
    seen 1 (step (start 0 [0x0B#8] [0x80#8])) = some (.ok, true, 1, 0xFFFE, [0x80]) := by decide

/-- A24. -/
theorem test_and :
    seen 1 (step (start 0 [0x0C#8] [0x3C#8, 0xF0#8])) = some (.ok, true, 1, 0xFFFE, [0x30]) := by decide

/-- A25. -/
theorem test_or :
    seen 1 (step (start 0 [0x0D#8] [0x3C#8, 0xF0#8])) = some (.ok, true, 1, 0xFFFE, [0xFC]) := by decide

/-- A26. -/
theorem test_xor :
    seen 1 (step (start 0 [0x0E#8] [0x3C#8, 0xF0#8])) = some (.ok, true, 1, 0xFFFE, [0xCC]) := by decide

/-- A29. -/
theorem test_not :
    seen 1 (step (start 0 [0x0F#8] [0x01#8])) = some (.ok, true, 1, 0xFFFE, [0xFE]) := by decide

/-- A30. -/
theorem test_shl :
    seen 1 (step (start 0 [0x10#8] [0x07#8, 0x01#8])) = some (.ok, true, 1, 0xFFFE, [0x80]) := by decide

/-- A31. -/
theorem test_shl_eight :
    seen 1 (step (start 0 [0x10#8] [0x08#8, 0x01#8])) = some (.ok, true, 1, 0xFFFE, [0x00]) := by decide

/-- A38. -/
theorem test_shr :
    seen 1 (step (start 0 [0x11#8] [0x04#8, 0xFF#8])) = some (.ok, true, 1, 0xFFFE, [0x0F]) := by decide

/-- A36. -/
theorem test_shr_large :
    seen 1 (step (start 0 [0x11#8] [0xC8#8, 0x80#8])) = some (.ok, true, 1, 0xFFFE, [0x00]) := by decide

/-- K1. -/
theorem test_eq :
    seen 1 (step (start 0 [0x12#8] [0x04#8, 0x04#8])) = some (.ok, true, 1, 0xFFFE, [0x01]) := by decide

/-- K2. -/
theorem test_eq_not :
    seen 1 (step (start 0 [0x12#8] [0x05#8, 0x04#8])) = some (.ok, true, 1, 0xFFFE, [0x00]) := by decide

/-- K4. -/
theorem test_neq :
    seen 1 (step (start 0 [0x13#8] [0x05#8, 0x04#8])) = some (.ok, true, 1, 0xFFFE, [0x01]) := by decide

/-- K8. -/
theorem test_gt_unsigned :
    seen 1 (step (start 0 [0x14#8] [0x7F#8, 0x80#8])) = some (.ok, true, 1, 0xFFFE, [0x01]) := by decide

/-- K9. -/
theorem test_gt_equal :
    seen 1 (step (start 0 [0x14#8] [0x05#8, 0x05#8])) = some (.ok, true, 1, 0xFFFE, [0x00]) := by decide

/-- K11. -/
theorem test_lt :
    seen 1 (step (start 0 [0x15#8] [0x80#8, 0x7F#8])) = some (.ok, true, 1, 0xFFFE, [0x01]) := by decide

/-- K12. -/
theorem test_lt_not :
    seen 1 (step (start 0 [0x15#8] [0x00#8, 0xFF#8])) = some (.ok, true, 1, 0xFFFE, [0x00]) := by decide

/-- K13. -/
theorem test_gte_equal :
    seen 1 (step (start 0 [0x16#8] [0x05#8, 0x05#8])) = some (.ok, true, 1, 0xFFFE, [0x01]) := by decide

/-- K14. -/
theorem test_gte_not :
    seen 1 (step (start 0 [0x16#8] [0x05#8, 0x04#8])) = some (.ok, true, 1, 0xFFFE, [0x00]) := by decide

/-- K15. -/
theorem test_lte :
    seen 1 (step (start 0 [0x17#8] [0xFF#8, 0x00#8])) = some (.ok, true, 1, 0xFFFE, [0x01]) := by decide

/-- K16. -/
theorem test_lte_not :
    seen 1 (step (start 0 [0x17#8] [0x05#8, 0x06#8])) = some (.ok, true, 1, 0xFFFE, [0x00]) := by decide

/-- A3. -/
theorem test_add_one_byte :
    seen 0 (step (start 0 [0x06#8] [0x05#8])) = some (.stackUnderflow, false, 1, 0xFFFF, []) := by decide

/-- A13. -/
theorem test_div_by_zero :
    seen 0 (step (start 0 [0x09#8] [0x00#8, 0x05#8])) = some (.divisionByZero, false, 1, 0xFFFF, []) := by decide

/-- A19. -/
theorem test_mod_by_zero :
    seen 0 (step (start 0 [0x0A#8] [0x00#8, 0x09#8])) = some (.divisionByZero, false, 1, 0xFFFF, []) := by decide

/-- K3 with NEQ (R130). -/
theorem test_neq_one_byte :
    seen 0 (step (start 0 [0x13#8] [0x04#8])) = some (.stackUnderflow, false, 1, 0xFFFF, []) := by decide

/-- M2. -/
theorem test_load :
    seen 1 (step (poke 0xFFFF 0x5A#8 (start 0 [0x18#8, 0xFF#8, 0xFF#8] []))) = some (.ok, true, 3, 0xFFFE, [0x5A]) := by decide

/-- M3. -/
theorem test_load_past_the_top :
    seen 0 (step (start 0xFFFE [0x18#8] [])) = some (.invalidAddress, false, 0xFFFF, 0xFFFF, []) := by decide

/-- M7. -/
theorem test_store :
    let r := step (start 0 [0x19#8, 0x00#8, 0x02#8] [0x2A#8])
    seen 0 r = some (.ok, true, 3, 0xFFFF, []) ∧ byteAfter 0x0200 r = some 0x2A := by decide

/-- M8. -/
theorem test_store_empty :
    seen 0 (step (start 0 [0x19#8, 0x00#8, 0x02#8] [])) = some (.stackUnderflow, false, 3, 0xFFFF, []) := by decide

/-- M9. -/
theorem test_load_ind :
    seen 1 (step (poke 0x1234 0xA5#8 (start 0 [0x1A#8] [0x34#8, 0x12#8]))) = some (.ok, true, 1, 0xFFFE, [0xA5]) := by decide

/-- M10. -/
theorem test_load_ind_popped_bytes :
    seen 1 (step (start 0 [0x1A#8] [0xFD#8, 0xFF#8])) = some (.ok, true, 1, 0xFFFE, [0xFD]) := by decide

/-- M13. -/
theorem test_store_ind :
    let r := step (start 0 [0x1B#8] [0xFF#8, 0xFF#8, 0x99#8])
    seen 0 r = some (.ok, true, 1, 0xFFFF, []) ∧ byteAfter 0xFFFF r = some 0x99 := by decide

/-- M14. -/
theorem test_store_ind_two_bytes :
    seen 0 (step (start 0 [0x1B#8] [0x00#8, 0x02#8])) = some (.stackUnderflow, false, 1, 0xFFFF, []) := by decide

/-- J1. -/
theorem test_jmp :
    seen 0 (step (start 0 [0x1C#8, 0x05#8, 0x00#8] [])) = some (.ok, true, 5, 0xFFFF, []) := by decide

/-- J3. -/
theorem test_jmp_past_the_top :
    seen 0 (step (start 0xFFFE [0x1C#8] [])) = some (.invalidAddress, false, 0xFFFF, 0xFFFF, []) := by decide

/-- J4. -/
theorem test_jz_taken :
    seen 0 (step (start 0 [0x1D#8, 0x1A#8, 0x00#8] [0x00#8])) = some (.ok, true, 0x1A, 0xFFFF, []) := by decide

/-- J5. -/
theorem test_jz_not :
    seen 0 (step (start 0 [0x1D#8, 0x1A#8, 0x00#8] [0x07#8])) = some (.ok, true, 3, 0xFFFF, []) := by decide

/-- J9. -/
theorem test_jnz_taken :
    seen 0 (step (start 0 [0x1E#8, 0x40#8, 0x00#8] [0x80#8])) = some (.ok, true, 0x40, 0xFFFF, []) := by decide

/-- J8. -/
theorem test_jnz_not :
    seen 0 (step (start 0 [0x1E#8, 0x40#8, 0x00#8] [0x00#8])) = some (.ok, true, 3, 0xFFFF, []) := by decide

/-- J12. -/
theorem test_call_at_top :
    seen 2 (step (start 0xFFFD [0x1F#8, 0x10#8, 0x00#8] [])) = some (.ok, true, 0x10, 0xFFFD, [0x00, 0x00]) := by decide

/-- J14. -/
theorem test_call_second_push :
    seen 1 (step (startAt 0x0100 [0x1F#8, 0x10#8, 0x00#8] 0x0001#16)) = some (.stackOverflow, false, 0x0103, 0, [0x03]) := by decide

/-- J16. -/
theorem test_ret :
    seen 0 (step (start 0 [0x20#8] [0x12#8, 0x34#8])) = some (.ok, true, 0x1234, 0xFFFF, []) := by decide

/-- J17. -/
theorem test_ret_one_byte :
    seen 0 (step (start 0 [0x20#8] [0x12#8])) = some (.stackUnderflow, false, 1, 0xFFFF, []) := by decide

/-- Y3. -/
theorem test_io_exit :
    seen 1 (step (start 0 [0x21#8, 0x00#8] [0x03#8])) = some (.halt, false, 2, 0xFFFE, [0x03]) := by decide

/-- Y7. -/
theorem test_io_undefined :
    seen 0 (step (start 0 [0x21#8, 0xFF#8] [])) = some (.hostIo, false, 2, 0xFFFF, []) := by decide

/-! ### Host operations, the iteration, loading -/

/-- `s` with a key latched. -/
def withKey (b : Byte) (s : State) : State := { s with host := { s.host with key := b, keyAvailable := true } }

/-- Y4. -/
theorem test_print_char :
    let r := step (start 0 [0x21#8, 0x01#8] [0x41#8])
    seen 0 r = some (.ok, true, 2, 0xFFFF, []) ∧ look (fun t => t.host.stdout) r = some [0x41#8] := by decide

/-- Y5: the fault of the pop stands; what is printed is free. -/
theorem test_print_char_empty :
    seen 0 (step (start 0 [0x21#8, 0x01#8] [])) = some (.stackUnderflow, false, 2, 0xFFFF, []) := by decide

/-- Y11, the first iteration. -/
theorem test_read_char_waits :
    let r := step (start 0x40 [0x21#8, 0x02#8] [])
    seen 0 r = some (.ok, true, 0x40, 0xFFFF, []) ∧ look (fun t => t.host.waiting) r = some true := by decide

/-- Y13. -/
theorem test_read_char_with_key :
    let r := step (withKey 0x41#8 (start 0 [0x21#8, 0x02#8] []))
    seen 1 r = some (.ok, true, 2, 0xFFFE, [0x41]) ∧ look (fun t => t.host.keyAvailable) r = some false := by decide

/-- R170, R180, R181: the pixel `(3, 2)` becomes grey 0x7F, its neighbour and the display keep what HOST_INIT gave them. -/
theorem test_draw_pixel :
    look (fun t => (t.sp, t.host.framebuffer.read 3 2, t.host.framebuffer.read 2 2, t.host.shown 3 2))
        (step (start 0 [0x21#8, 0x10#8] [0x7F#8, 2#8, 3#8])) =
      some (0xFFFF#16, some 0xFF7F7F7F#32, some (Config.initialPixel 642), some (Config.initialDisplay 643)) := by
  change some (0xFFFF#16, (Framebuffer.set [] 3 2 0xFF7F7F7F#32).read 3 2,
    (Framebuffer.set [] 3 2 0xFF7F7F7F#32).read 2 2, HostContext.reset.shown 3 2) = _
  rw [fbRead_set, fbRead_set]; rfl

/-- R172, R181: of `[1, 3) × [239, 241)` the row 239 is painted, columns 1 and 2, and the row 240 lies outside. -/
theorem test_fill_rect_clips :
    look (fun t => (t.host.framebuffer.read 1 239, t.host.framebuffer.read 2 239, t.host.framebuffer.read 3 239,
        t.host.framebuffer.read 1 240)) (step (start 0 [0x21#8, 0x12#8] [0x01#8, 2#8, 2#8, 239#8, 1#8])) =
      some (some 0xFF010101#32, some 0xFF010101#32, some (Config.initialPixel 76483), none) := by
  have out (fb : Framebuffer) : fb.read 1 240 = none := rfl
  change some (Framebuffer.read (Framebuffer.paint [] ((rectPixels 1#8 239#8 2#8 2#8).map (·, grey 0x01#8))) 1 239,
    Framebuffer.read (Framebuffer.paint [] ((rectPixels 1#8 239#8 2#8 2#8).map (·, grey 0x01#8))) 2 239,
    Framebuffer.read (Framebuffer.paint [] ((rectPixels 1#8 239#8 2#8 2#8).map (·, grey 0x01#8))) 3 239, _) = _
  rw [show (rectPixels 1#8 239#8 2#8 2#8).map (·, grey 0x01#8) = [((1, 239), 0xFF010101#32), ((2, 239), 0xFF010101#32),
    ((1, 240), 0xFF010101#32), ((2, 240), 0xFF010101#32)] by decide, out]
  simp [Framebuffer.paint, fbRead_set, Config.screenWidth, Config.screenHeight]; rfl

/-- R171: five bytes are popped. -/
theorem test_draw_line_pops :
    look (fun t => (t.error, t.sp)) (exec (.io 0x11#8) (start 0 [] [1#8, 2#8, 3#8, 4#8, 5#8])) =
      some (.ok, 0xFFFF#16) := by decide

/-- R173: before anything is drawn, the display shows from the first `REFRESH` what HOST_INIT put into the framebuffer. -/
theorem test_refresh :
    look (fun t => t.host.shown 3 2) (step (start 0 [0x21#8, 0x13#8] [])) = some (some (Config.initialPixel 643)) := by rfl

/-- Y9. -/
theorem test_poll_key : seen 1 (step (start 0 [0x21#8, 0x20#8] [])) = some (.ok, true, 2, 0xFFFE, [0]) := by decide

/-- R174: a key latched by an earlier pump. -/
theorem test_poll_key_latched :
    seen 1 (step (withKey 0x41#8 (start 0 [0x21#8, 0x20#8] []))) = some (.ok, true, 2, 0xFFFE, [1]) := by decide

/-- R40, R174: a key latched by the pump of this iteration has set the flag. -/
theorem test_poll_key_pumped :
    seen 1 (step { start 0 [0x21#8, 0x20#8] [] with schedule := [{ shutdown := false, events := [.key 0x41#8] }] }) =
      some (.ok, true, 2, 0xFFFE, [1]) := by decide

/-- Y10. -/
theorem test_poll_key_full :
    seen 0 (step (startAt 0x0100 [0x21#8, 0x20#8] 0x0000#16)) = some (.stackOverflow, false, 0x0102, 0, []) := by decide

/-- R177: the high byte of x = 0x0123 ends on top. -/
theorem test_get_mouse_x :
    seen 2 (exec (.io 0x23#8) { start 0 [] [] with host := { HostContext.reset with mouseX := 0x0123#16 } }) =
      some (.ok, true, 0, 0xFFFD, [0x01, 0x23]) := by decide

/-- R182: two keys latched in one pump; the later one is the latest key byte. -/
theorem test_latch :
    (latchEvents HostContext.reset [.key 0x41#8, .mouse 5#16 6#16 1#8, .key 0x42#8]).key = 0x42#8 ∧
    (latchEvents HostContext.reset [.mouse 5#16 6#16 1#8]).mouseEvent = true := by decide

/-- X4. -/
theorem test_shutdown :
    seen 0 (step { start 0 [0x01#8] [] with schedule := [{ shutdown := true, events := [] }] }) =
      some (.ok, false, 0, 0xFFFF, []) := by decide

/-- X7. -/
theorem test_stopped : seen 0 (step { start 0 [0x03#8] [] with running := false }) =
    some (.ok, false, 0, 0xFFFF, []) := by decide

/-- X3. -/
theorem test_pc_past_the_top :
    seen 0 (step { State.reset with pc := 65536 }) = some (.invalidAddress, false, 65536, 0xFFFF, []) := by decide

/-- R230. -/
theorem test_init :
    look (fun t => (t.mem, t.pc, t.sp, t.bp, t.running)) (State.init [0x02#8, 0x00#8, 0x07#8] (start 9 [1#8] [1#8])) =
      some ([(0, 0x02#8), (2, 0x07#8)], 0, 0xFFFF#16, 0xFFFF#16, true) := by decide

/-- The instruction placed by `withFetchWord` is the next one to run, also where it would not fit above `PC`. -/
theorem test_with_fetch_word :
    seen 1 (step (State.reset.withFetchWord 16 0x0502)) = some (.ok, true, 2, 0xFFFE, [5]) := by decide

theorem test_with_fetch_word_no_room :
    seen 1 (step ({ State.reset with pc := 65536 }.withFetchWord 16 0x0502)) = some (.ok, true, 2, 0xFFFE, [5]) := by decide

/-- The assembly of 95_test_vectors.md 1.1, scenario 3, in part: a label used before and after its definition. -/
theorem test_assemble :
    Assembler.assemble "loop: LOAD 0x0100 ; again\n jz end\nJMP loop\nend: halt".toList =
      .ok { image := [0x18#8, 0x00#8, 0x01#8, 0x1D#8, 0x09#8, 0x00#8, 0x1C#8, 0x00#8, 0x00#8, 0x01#8]
            warnings := []
            unresolved := [] } := by decide

/-- R88 to R90: what the assembler refuses, warns of and reports. -/
theorem test_assemble_refuses :
    Assembler.assemble "PUSH 256".toList = .error (.outOfRange 256) ∧
    Assembler.assemble "PUSH x".toList = .error (.labelInByteSlot "x".toList) ∧
    Assembler.assemble "JMP".toList = .error (.missingOperand "JMP".toList) ∧
    Assembler.assemble "a:\na:".toList = .error (.duplicateLabel "a".toList) ∧
    Assembler.assemble "FOO\nJMP y\nSYS 1".toList =
      .ok { image := [0x1C#8, 0x00#8, 0x00#8, 0x21#8, 0x01#8]
            warnings := ["FOO".toList]
            unresolved := ["y".toList] } := by decide


/-! ### Witnesses: states and operands that meet the hypotheses of the obligations, each clause at the edge of its range -/

/-- The state after reset with `n` bytes on the stack. -/
def deep (n : Nat) : State := { State.reset with sp := BitVec.ofNat 16 (0xFFFF - n) }

/-- The states the depth clauses split at: empty, one to five bytes, three short of full, and so up to full. -/
theorem deep_depths : ∀ n ∈ [0, 1, 2, 3, 4, 5, 0xFFFC, 0xFFFD, 0xFFFE, 0xFFFF], (deep n).depth = n ∧ (deep n).error = .ok := by
  decide

theorem witness_DisassemblyInvertsEncoding :
    ∃ o, Assembler.assembleItems ([Instr.push 0x07#8, .jmp 0xFFFF#16].map .plain) = .ok o := ⟨_, rfl⟩

theorem witness_DecodeEncodeAgree :
    (Instr.jmp 0xFFFF#16).wellFormed = true ∧
    decode [0x1C#8, 0xFF#8, 0xFF#8, 0x22#8] = .ok (.jmp 0xFFFF#16) [0x22#8] := by decide

theorem witness_IllegalOpcodesExactly :
    Fetches (start 0xFFFF [0x22#8] []) ∧ (start 0xFFFF [0x22#8] []).pc < 65536 ∧
    0x22 ≤ ((start 0xFFFF [0x22#8] []).mem.read (start 0xFFFF [0x22#8] []).pc).toNat :=
  ⟨⟨rfl, rfl, rfl⟩, by decide, by decide⟩

theorem witness_PushPushesImmediate :
    ((deep 0xFFFE).depth < 0xFFFF ∧ (deep 0xFFFF).depth = 0xFFFF) ∧
    (Fetches (start 0xFFFE [0x02#8, 0x09#8] []) ∧
      (start 0xFFFE [0x02#8, 0x09#8] []).mem.bytesFrom (start 0xFFFE [0x02#8, 0x09#8] []).pc 3 = encode (.push 0x09#8) ++ []) ∧
    (Fetches (start 0xFFFF [0x02#8] []) ∧ (start 0xFFFF [0x02#8] []).pc < 65536 ∧
      (start 0xFFFF [0x02#8] []).mem.read (start 0xFFFF [0x02#8] []).pc = 0x02#8 ∧
      65536 < (start 0xFFFF [0x02#8] []).pc + 2) :=
  ⟨by decide, ⟨⟨rfl, rfl, rfl⟩, by decide⟩, ⟨rfl, rfl, rfl⟩, by decide⟩

theorem witness_NopAndPopResult : 1 ≤ (deep 1).depth ∧ (deep 0).depth = 0 := by decide

theorem witness_DupAndSwapResult :
    (1 ≤ (deep 1).depth ∧ (deep 1).depth < 0xFFFF) ∧ (1 ≤ (deep 0xFFFE).depth ∧ (deep 0xFFFE).depth < 0xFFFF) ∧
    (deep 0).depth = 0 ∧ (deep 0xFFFF).depth = 0xFFFF ∧ 2 ≤ (deep 2).depth ∧ 2 ≤ (deep 0xFFFF).depth ∧
    (deep 1).depth = 1 := by decide

theorem witness_NetStackEffect :
    ∃ t, execNet [.push 0x01#8, .dup, .add, .io 0x23#8, .io 0x01#8, .io 0x02#8, .io 0x00#8] State.reset t 2 :=
  ⟨_, rfl, _, rfl, rfl, rfl, _, rfl, rfl, rfl, _, rfl, rfl, rfl, _, rfl, rfl, rfl, _, rfl, rfl, rfl, _, rfl, rfl, rfl, _, rfl, rfl,
    rfl, by decide⟩

theorem witness_StackCapacity : (deep 0).depth = 0 ∧ (deep 0).error = .ok ∧ 0 ≤ 65535 ∧ 65535 ≤ 65535 := by decide

/-- The clauses of a rule that needs two bytes: two, all that fit, one, none. -/
theorem witness_two_bytes :
    2 ≤ (deep 2).depth ∧ 2 ≤ (deep 0xFFFF).depth ∧ (deep 1).depth < 2 ∧ (deep 1).depth = 1 ∧ (deep 0).depth = 0 := by decide

theorem witness_AddSubMulResult : 2 ≤ (deep 2).depth ∧ (deep 1).depth < 2 := by decide

theorem witness_DivModResult :
    (2 ≤ (start 0 [] [1#8, 0#8]).depth ∧ stackByte (start 0 [] [1#8, 0#8]) 0 ≠ 0#8) ∧
    (2 ≤ (deep 2).depth ∧ stackByte (deep 2) 0 = 0#8) ∧ (deep 1).depth < 2 := by decide

theorem witness_NegNotResult : 1 ≤ (deep 1).depth ∧ 1 ≤ (deep 0xFFFF).depth ∧ (deep 0).depth = 0 := by decide

theorem witness_AndOrXorResult : 2 ≤ (deep 0xFFFF).depth ∧ (deep 0).depth < 2 := by decide

theorem witness_ShiftResult : 2 ≤ (deep 2).depth ∧ (deep 1).depth < 2 := by decide

theorem witness_IntegerLaws :
    (2 ≤ (start 0 [] [1#8, 0#8]).depth ∧ stackByte (start 0 [] [1#8, 0#8]) 0 ≠ 0#8) ∧
    (1 ≤ (deep 0xFFFE).depth ∧ (deep 0xFFFE).depth < 0xFFFF ∧ (deep 0xFFFE).error = .ok) := by decide

theorem witness_AluUnderflowState :
    Instr.add ∈ ([.add, .sub, .mul, .div, .mod, .and, .or, .xor, .shl, .shr] : List Instr) ∧
    (deep 1).depth = 1 ∧ (deep 0).depth = 0 := by decide

theorem witness_CompareResult : 2 ≤ (deep 2).depth ∧ (deep 1).depth = 1 ∧ (deep 0).depth = 0 := by decide

theorem witness_LoadAndStoreResult :
    ((deep 0xFFFE).depth < 0xFFFF ∧ (deep 0xFFFF).depth = 0xFFFF ∧ 1 ≤ (deep 1).depth ∧ (deep 0).depth = 0) ∧
    (Fetches (start 0xFFFD [0x18#8, 0xFF#8, 0xFF#8] []) ∧
      (start 0xFFFD [0x18#8, 0xFF#8, 0xFF#8] []).mem.bytesFrom (start 0xFFFD [0x18#8, 0xFF#8, 0xFF#8] []).pc 3 =
        encode (.load 0xFFFF#16) ++ []) ∧
    (Fetches (start 0xFFFE [0x19#8] []) ∧ (start 0xFFFE [0x19#8] []).pc < 65536 ∧
      (start 0xFFFE [0x19#8] []).mem.read (start 0xFFFE [0x19#8] []).pc = 0x19#8 ∧
      65536 < (start 0xFFFE [0x19#8] []).pc + 3) :=
  ⟨by decide, ⟨⟨rfl, rfl, rfl⟩, by decide⟩, ⟨rfl, rfl, rfl⟩, by decide⟩

theorem witness_LoadIndPushesByte :
    2 ≤ (deep 2).depth ∧ 2 ≤ (deep 0xFFFF).depth ∧ (deep 1).depth = 1 ∧ (deep 0).depth = 0 := by decide

theorem witness_StoreIndWritesByte :
    3 ≤ (deep 3).depth ∧ (1 ≤ (deep 1).depth ∧ (deep 1).depth ≤ 2) ∧ (1 ≤ (deep 2).depth ∧ (deep 2).depth ≤ 2) ∧
    (deep 0).depth = 0 := by decide

theorem witness_StoreSeenByNextFetch :
    1 ≤ (start 0xFFFD [] [1#8]).depth ∧ (∃ t, exec (.store 0xFFFF#16) (start 0xFFFD [] [1#8]) = .next t) ∧ 2 < 3 ∧
    (start 0xFFFD [] [1#8]).pc + 2 < 65536 := ⟨by decide, ⟨_, rfl⟩, by decide, by decide⟩

theorem witness_JumpAndBranchResult :
    (1 ≤ (deep 1).depth ∧ stackByte (deep 1) 0 = 0#8) ∧
    (1 ≤ (start 0 [] [0x80#8]).depth ∧ stackByte (start 0 [] [0x80#8]) 0 ≠ 0#8) ∧ (deep 0).depth = 0 ∧
    (Fetches (start 0xFFFF [0x1C#8] []) ∧ (start 0xFFFF [0x1C#8] []).pc < 65536 ∧
      (start 0xFFFF [0x1C#8] []).mem.read (start 0xFFFF [0x1C#8] []).pc = 0x1C#8 ∧
      65536 < (start 0xFFFF [0x1C#8] []).pc + 3) :=
  ⟨by decide, by decide, by decide, ⟨rfl, rfl, rfl⟩, by decide⟩

theorem witness_CallPushesReturnAddress :
    (deep 0xFFFD).depth ≤ 0xFFFD ∧ (deep 0xFFFE).depth = 0xFFFE ∧ (deep 0xFFFF).depth = 0xFFFF ∧
    (Fetches (start 0xFFFD [0x1F#8, 0x10#8] []) ∧
      (start 0xFFFD [0x1F#8, 0x10#8] []).mem.bytesFrom (start 0xFFFD [0x1F#8, 0x10#8] []).pc 3 =
        encode (.call 0x0010#16) ++ []) :=
  ⟨by decide, by decide, by decide, ⟨rfl, rfl, rfl⟩, by decide⟩

theorem witness_RetPopsReturnAddress :
    2 ≤ (deep 2).depth ∧ (deep 1).depth = 1 ∧ (deep 0).depth = 0 ∧ Fetches (start 0xFFFF [0x20#8] []) ∧
    (start 0xFFFF [0x20#8] []).mem.bytesFrom (start 0xFFFF [0x20#8] []).pc 3 = encode .ret ++ [] :=
  ⟨by decide, by decide, by decide, ⟨rfl, rfl, rfl⟩, by decide⟩

/-- A `HALT` in the last byte of memory. -/
theorem witness_HaltStopsCleanly :
    Fetches (start 0xFFFF [0x01#8] []) ∧
    (start 0xFFFF [0x01#8] []).mem.bytesFrom (start 0xFFFF [0x01#8] []).pc 3 = encode .halt ++ [] :=
  ⟨⟨rfl, rfl, rfl⟩, by decide⟩

/-- The return address 65 536, on a stack with room for exactly its two bytes. -/
theorem witness_CallRetMirror :
    (deep 0xFFFD).depth ≤ 0xFFFD ∧ ({ deep 0xFFFD with pc := 65536 } : State).pc ≤ 65536 ∧
    ∃ t u : State, exec (.call 0x0010#16) { deep 0xFFFD with pc := 65536 } = .next t ∧ u.sp = t.sp ∧
      stackByte u 0 = stackByte t 0 ∧ stackByte u 1 = stackByte t 1 :=
  ⟨by decide, by decide, _, _, rfl, rfl, rfl, rfl⟩

theorem witness_IoResultHandling :
    (deep 0).error = .ok ∧ (stopped (deep 0) .stackUnderflow).error ≠ .ok ∧ (0xFF#8 : Byte) ≠ 0x00#8 ∧
    (Fetches (start 0xFFFE [0x21#8, 0x20#8] []) ∧
      (start 0xFFFE [0x21#8, 0x20#8] []).mem.bytesFrom (start 0xFFFE [0x21#8, 0x20#8] []).pc 3 = encode (.io 0x20#8) ++ []) ∧
    (Fetches (start 0xFFFF [0x21#8] []) ∧ 65536 < (start 0xFFFF [0x21#8] []).pc + 2) :=
  ⟨by decide, by decide, by decide, ⟨⟨rfl, rfl, rfl⟩, by decide⟩, ⟨rfl, rfl, rfl⟩, by decide⟩

theorem witness_PrintRefreshUndefinedResult :
    (deep 1).error = .ok ∧ 1 ≤ (deep 1).depth ∧ (0x03#8 : Byte) ∉ definedIds ∧ (0x26#8 : Byte) ∉ definedIds ∧
    (0xFF#8 : Byte) ∉ definedIds ∧ (0x12#8 : Byte) ≠ 0x13#8 ∧
    ∃ t, exec (.io 0x12#8) (deep 5) = .next t ∧ t.error ≠ .stackUnderflow ∧ t.error ≠ .stackOverflow :=
  ⟨by decide, by decide, by decide, by decide, by decide, by decide, _, rfl, by decide, by decide⟩

theorem witness_ReadCharProtocol :
    ((deep 0).error = .ok ∧ (deep 0).host.keyAvailable = false) ∧
    ((withKey 0x41#8 (deep 0xFFFE)).error = .ok ∧ (withKey 0x41#8 (deep 0xFFFE)).host.keyAvailable = true ∧
      (withKey 0x41#8 (deep 0xFFFE)).depth < 0xFFFF) := by decide

theorem witness_FillRectPaintsRectangle : (deep 5).error = .ok ∧ 5 ≤ (deep 5).depth := by decide

theorem witness_PixelAndLinePaint : (deep 5).error = .ok ∧ 3 ≤ (deep 3).depth ∧ 5 ≤ (deep 5).depth := by decide

/-- A stack with room for one byte. -/
theorem witness_PollAndMouseButtonPushes : (deep 0xFFFE).error = .ok ∧ (deep 0xFFFE).depth < 0xFFFF := by decide

theorem witness_GetKeyAndMousePosition :
    (deep 0xFFFD).error = .ok ∧ (deep 0xFFFE).depth < 0xFFFF ∧ (deep 0xFFFD).depth ≤ 0xFFFD := by decide

/-- Each popping operation with one byte too few, each pushing one on a full stack, with one place left, `READ_CHAR` with a key. -/
theorem witness_PortFaultStands :
    (∀ p ∈ poppingIds, (deep (p.2 - 1)).error = .ok ∧ (deep (p.2 - 1)).depth < p.2) ∧
    ((deep 0xFFFF).error = .ok ∧ (deep 0xFFFF).depth = 0xFFFF ∧ (0x23#8, 2) ∈ pushingIds) ∧
    ((deep 0xFFFE).error = .ok ∧ (deep 0xFFFE).depth = 0xFFFE) ∧
    ((withKey 0x41#8 (deep 0xFFFF)).error = .ok ∧ (withKey 0x41#8 (deep 0xFFFF)).host.keyAvailable = true ∧
      (withKey 0x41#8 (deep 0xFFFF)).depth = 0xFFFF) := by decide

theorem witness_HostConfinedToPort :
    (stopped (deep 1) .stackUnderflow).error ≠ .ok ∧ PortRequest.rewind ∈ [PortRequest.rewind] ∧
    PortRequest.rewind ∉ [PortRequest.pop, .push 0x01#8] := by decide

theorem witness_FrameStoresNothing :
    (Instr.jz 0x1234#16 ∈ storesNothing ++ [.jmp 0x1234#16, .jz 0x1234#16, .jnz 0x1234#16]) ∧
    ∃ t, exec (.jz 0x1234#16) (deep 1) = .next t := ⟨by decide, _, rfl⟩

theorem witness_FrameAluAndCompare :
    (Instr.sub ∈ twoToOne ∧ ∃ t, exec .sub (deep 2) = .next t) ∧ ∃ t, exec .not (deep 1) = .next t :=
  ⟨⟨by decide, _, rfl⟩, _, rfl⟩

theorem witness_FramePushes :
    (∃ t, exec .dup (deep 1) = .next t) ∧ (∃ t, exec (.call 0x0010#16) (deep 0) = .next t) ∧
    ∃ t, exec .swap (deep 2) = .next t := ⟨⟨_, rfl⟩, ⟨_, rfl⟩, _, rfl⟩

theorem witness_FrameStores :
    (∃ t, exec (.store 0xFFFF#16) (deep 1) = .next t) ∧ ∃ t, exec .storeInd (deep 3) = .next t := ⟨⟨_, rfl⟩, _, rfl⟩

theorem witness_FrameIo :
    (0x10#8 : Byte) ≠ 0x02#8 ∧ (0x10#8 : Byte) ∉ pushingIds.map Prod.fst ∧
    ∃ t, exec (.io 0x23#8) (deep 0xFFFE) = .next t := ⟨by decide, by decide, _, rfl⟩

theorem witness_OnlyIoReachesTheHost :
    (∀ id, Instr.halt ≠ .io id) ∧ ∃ t, exec .halt (deep 0) = .next t := ⟨fun _ h => (nomatch h), _, rfl⟩

theorem witness_InitLoadsImage :
    (List.replicate 65536 (0x01#8 : Byte)).length ≤ 65536 ∧ 65536 < (List.replicate 65537 (0x01#8 : Byte)).length := by
  simp only [List.length_replicate]; decide

theorem witness_StepRunsTheDecodedInstruction :
    Fetches (start 0xFFFD [0x1F#8, 0x10#8] []) ∧
    decode ((start 0xFFFD [0x1F#8, 0x10#8] []).mem.bytesFrom 0xFFFD 3) = .ok (.call 0x0010#16) [] :=
  ⟨⟨rfl, rfl, rfl⟩, by decide⟩

theorem witness_FetchFaults :
    (Fetches (start 65536 [] []) ∧ 65536 ≤ (start 65536 [] []).pc) ∧
    (Fetches (start 0xFFFE [0x18#8] []) ∧ decode ((start 0xFFFE [0x18#8] []).mem.bytesFrom 0xFFFE 3) = .truncated) ∧
    (Fetches (start 0xFFFF [0x21#8] []) ∧ decode ((start 0xFFFF [0x21#8] []).mem.bytesFrom 0xFFFF 3) = .truncated) ∧
    (Fetches (start 65533 [0x21#8] []) ∧ (start 65533 [0x21#8] []).pc < 65534 ∧
      ((start 65533 [0x21#8] []).mem.read (start 65533 [0x21#8] []).pc).toNat ≤ 0x21) :=
  ⟨⟨⟨rfl, rfl, rfl⟩, by decide⟩, ⟨⟨rfl, rfl, rfl⟩, by decide⟩, ⟨⟨rfl, rfl, rfl⟩, by decide⟩, ⟨rfl, rfl, rfl⟩, by decide⟩

/-- The state after the first iteration of Y11, with what the host answers next. -/
def waitingAt (schedule : List PumpAnswer) : State :=
  { start 0x40 [0x21#8, 0x02#8] [] with host := { HostContext.reset with waiting := true }, schedule := schedule }

/-- A pump that goes on and latches `events`. -/
def going (events : List InputEvent) : PumpAnswer where
  shutdown := false
  events := events

/-- Y12, iteration 3: the key this pump latches is pushed in this iteration. -/
theorem test_read_char_wakes :
    seen 1 (step (waitingAt [going [.key 0x78#8]])) = some (.ok, true, 0x42, 0xFFFE, [0x78]) := by decide

theorem witness_ShutdownAndWaitEndTheIteration :
    ((deep 0).running = true ∧
      (pumpAnswer { deep 0 with schedule := [{ shutdown := true, events := [.key 0x41#8] }] }).shutdown = true) ∧
    ((waitingAt []).running = true ∧ (pumpAnswer (waitingAt [])).shutdown = false ∧
      hostWait (pumped (waitingAt [])) = true) := by decide

theorem witness_WaitEndsWithAKey :
    (let s := waitingAt [going [.key 0x77#8, .key 0x78#8, .mouse 1#16 2#16 3#8]]
    s.running = true ∧ s.error = .ok ∧ s.host.waiting = true ∧ s.host.keyAvailable = false ∧
    s.schedule = going [.key 0x77#8, .key 0x78#8, .mouse 1#16 2#16 3#8] :: [] ∧
    (∀ b, InputEvent.key b ∉ (going [.mouse 1#16 2#16 3#8]).events) ∧
    (going [.key 0x77#8, .key 0x78#8, .mouse 1#16 2#16 3#8]).events =
      [.key 0x77#8] ++ .key 0x78#8 :: [.mouse 1#16 2#16 3#8] ∧
    s.pc ≤ 65534 ∧ s.mem.read s.pc = 0x21#8 ∧ s.mem.read (s.pc + 1) = 0x02#8 ∧ s.depth < 0xFFFF) ∧
    (∀ id, id = 0x20#8 ∨ id = 0x22#8 →
      let s := { start 65534 [0x21#8, id] [] with schedule := [going [.key 0x77#8, .mouse 1#16 2#16 3#8]] }
      Fetches s ∧ s.error = .ok ∧ s.depth < 0xFFFF ∧ s.pc ≤ 65534 ∧ s.mem.read s.pc = 0x21#8 ∧ s.mem.read (s.pc + 1) = id ∧
      InputEvent.key 0x77#8 ∈ (pumpAnswer s).events ∧ InputEvent.mouse 1#16 2#16 3#8 ∈ (pumpAnswer s).events) :=
  ⟨⟨rfl, rfl, rfl, rfl, rfl, by simp [going], rfl, by decide, by decide, by decide, by decide⟩,
    fun id h => by rcases h with rfl | rfl <;> exact ⟨⟨rfl, rfl, rfl⟩, by decide⟩⟩

theorem witness_StoppedStateIsFinal : (stopped (deep 0) .halt).running = false := rfl

/-- Both ends: nothing left to run, and one `NOP` at the top of memory. -/
theorem witness_ZeroedMemoryRunsOff :
    (∀ p, p = 65536 ∨ p = 65535 → (start p [] []).running = true ∧ (start p [] []).schedule = [] ∧
      hostWait (start p [] []) = false ∧ (start p [] []).pc ≤ 65536 ∧
      ∀ a, (start p [] []).pc ≤ a → a < 65536 → (start p [] []).mem.read a = 0#8) ∧
    ((stopped (deep 1) .halt).schedule = [] ∧ hostWait (stopped (deep 1) .halt) = false ∧
      ∃ t, State.init [] (stopped (deep 1) .halt) = .next t) :=
  ⟨fun p h => ⟨rfl, rfl, rfl, by rcases h with rfl | rfl <;> decide, fun _ _ _ => rfl⟩, rfl, rfl, _, rfl⟩

theorem witness_PlacedWordRunsNext : decodeTableWord 16 0x0502 = some (.push 0x05#8) := by decide

/-- A running state that is not the reset state meets the invariant. -/
theorem start_inv : (start 0 [0x02#8, 0x05#8] []).Inv where
  memWf := by decide
  pcInRange := by decide
  bpReserved := rfl
  errorStops := fun h => absurd rfl h
  framebufferWf := by decide
  displayWf := fun fb h => nomatch h

theorem witness_StepKeepsInvariant :
    (start 0 [0x02#8, 0x05#8] []).Inv ∧ ∃ t, step (start 0 [0x02#8, 0x05#8] []) = .next t := ⟨start_inv, _, rfl⟩

theorem witness_InitEstablishesInvariant :
    (stopped (deep 1) .halt).host.framebuffer.wf ∧
    (∀ fb, (stopped (deep 1) .halt).host.refreshed = some fb → fb.wf) ∧
    ∃ t, State.init [0x01#8] (stopped (deep 1) .halt) = .next t := ⟨by decide, fun fb h => (nomatch h), _, rfl⟩

theorem witness_BpNeitherReadNorWritten : ∃ t, step (start 0 [0x02#8, 0x05#8] []) = .next t := ⟨_, rfl⟩

/-- A running state at a `HALT`, and a stopped one with an error recorded, meet the invariant. -/
theorem halting_inv : (start 0 [0x01#8] []).Inv ∧ (stopped (start 0 [0x01#8] []) .stackOverflow).Inv :=
  ⟨⟨by decide, by decide, rfl, fun h => absurd rfl h, by decide, fun fb h => (nomatch h)⟩,
    ⟨by decide, by decide, rfl, fun _ => rfl, by decide, fun fb h => (nomatch h)⟩⟩

theorem witness_RunningFallsOnce :
    (∃ t, State.init [0x01#8] (deep 1) = .next t) ∧ (∃ t, exec .halt (deep 1) = .next t) ∧
    (∃ t, exec (.io 0x00#8) (deep 1) = .next t ∧ (deep 1).error = .ok) ∧
    ((start 0 [0x01#8] []).Inv ∧ (start 0 [0x01#8] []).running = true ∧
      ∃ t, step (start 0 [0x01#8] []) = .next t ∧ t.error ≠ .ok ∧ t.running = false) ∧
    (∃ t, (pumpAnswer { deep 0 with schedule := [{ shutdown := true, events := [] }] }).shutdown = true ∧
      step { deep 0 with schedule := [{ shutdown := true, events := [] }] } = .next t) ∧
    ∃ t, step (stopped (deep 1) .halt) = .next t ∧ (stopped (deep 1) .halt).running = false :=
  ⟨⟨_, rfl⟩, ⟨_, rfl⟩, ⟨_, rfl, rfl⟩, ⟨halting_inv.1, rfl, _, rfl, by decide, rfl⟩, ⟨_, rfl, rfl⟩, _, rfl, rfl⟩

theorem witness_FirstErrorStands :
    (stopped (start 0 [0x01#8] []) .stackOverflow).Inv ∧ (stopped (start 0 [0x01#8] []) .stackOverflow).error ≠ .ok ∧
    runsTo (stopped (start 0 [0x01#8] []) .stackOverflow) 2 (stopped (start 0 [0x01#8] []) .stackOverflow) :=
  ⟨halting_inv.2, by decide, rfl⟩

theorem witness_RunEndsInOneOfThreeWays :
    (start 0 [0x01#8] []).Inv ∧ (start 0 [0x01#8] []).running = true ∧
    ∃ t, step (start 0 [0x01#8] []) = .next t ∧ t.running = false := ⟨halting_inv.1, rfl, _, rfl, rfl⟩

theorem witness_OutputsNeverReachTheBlock :
    let t := { deep 1 with host := { HostContext.reset with stdout := [0x41#8], framebuffer := [(0, 0#32)] }, free := 1 }
    SameButOutputs (deep 1) t ∧ (∃ s', step (deep 1) = .next s') ∧ ∃ t', step t = .next t' :=
  ⟨⟨⟨rfl, rfl, rfl, rfl, rfl, rfl⟩, rfl, rfl, rfl, rfl, rfl, rfl, rfl, rfl⟩, ⟨_, rfl⟩, _, rfl⟩

theorem witness_AssemblerEmitsEncodings :
    ((List.replicate 65536 Instr.nop).flatMap encode).length ≤ 65536 ∧
    65536 < ((List.replicate 65537 Instr.nop).flatMap encode).length := by
  have h (n : Nat) : ((List.replicate n Instr.nop).flatMap encode).length = n := by
    rw [List.length_flatMap, List.map_replicate, List.sum_replicate]; simp [encode, operandBytes]
  rw [h, h]; decide

theorem witness_LabelsResolveToPositions :
    (([] : List Instr).flatMap encode).length + ([Instr.push 0x01#8].flatMap encode).length +
      ((List.replicate 65530 Instr.nop).flatMap encode).length + 3 < 65536 := by
  have h (n : Nat) : ((List.replicate n Instr.nop).flatMap encode).length = n := by
    rw [List.length_flatMap, List.map_replicate, List.sum_replicate]; simp [encode, operandBytes]
  rw [h]; decide

end Sys2Proof.Tests
end

section
/-! SUPPORT. What an instruction and a step do to `running` and `error` together (R15, R31, R33), and the statement about
`running`. -/

namespace Sys2Proof.Machine

/-- `running` and `error` go from `s` to `t` as they were, or the block has stopped with an error recorded (`HALT` among them):
all that an instruction can do to them. -/
def KeepsOrStops (s t : State) : Prop :=
  (t.running = s.running ∧ t.error = s.error) ∨ (t.running = false ∧ t.error ≠ .ok)

/-- The same of a result: of its next state, where there is one. -/
def ResultKeepsOrStops (s : State) (r : Result) : Prop := ∀ t, r = .next t → KeepsOrStops s t

/-- The case of an update that touches neither field, which `rfl` sees. -/
theorem KeepsOrStops.kept {s t : State} (hr : t.running = s.running := by rfl) (he : t.error = s.error := by rfl) :
    KeepsOrStops s t := .inl ⟨hr, he⟩

theorem KeepsOrStops.trans {s t u : State} (h : KeepsOrStops s t) (h' : KeepsOrStops t u) : KeepsOrStops s u := by
  rcases h' with ⟨hr, he⟩ | hstop
  · rw [KeepsOrStops, hr, he]; exact h
  · exact .inr hstop

theorem keepsOrStops_raise (s : State) {e : ErrorSlot} (he : e ≠ .ok := by decide) : KeepsOrStops s (raise e s) :=
  .inr ⟨rfl, he⟩

theorem keepsOrStops_halt (s : State) : KeepsOrStops s (halt s) := .inr ⟨rfl, nofun⟩

theorem keepsOrStops_of_sameBlock {s t : State} (h : SameBlock t s) : KeepsOrStops s t := by
  obtain ⟨-, -, -, -, hr, he⟩ := h
  exact .kept hr he

theorem KeepsOrStops.stopped {s t : State} (h : KeepsOrStops s t) (hs : s.running = false) : t.running = false := by
  rcases h with ⟨hr, _⟩ | ⟨hr, _⟩
  · exact hr.trans hs
  · exact hr

/-! ### The primitives and the shapes of the instructions -/

section Shapes
variable {s : State}

theorem resultKeepsOrStops_next {t : State} (h : KeepsOrStops s t) : ResultKeepsOrStops s (.next t) := by
  intro u hu; cases hu; exact h

theorem pop_keepsOrStops {rest : Byte → State → Result} (h : ∀ v u, ResultKeepsOrStops u (rest v u)) :
    ResultKeepsOrStops s (pop s rest) := by
  intro t ht
  rcases pop_cases ht with ⟨_, rfl⟩ | ⟨_, ht⟩
  · exact keepsOrStops_raise s
  · exact .trans .kept (h _ s.popped t ht)

theorem pushThen_keepsOrStops (v : Byte) {rest : State → Result} (h : ∀ u, ResultKeepsOrStops u (rest u)) :
    ResultKeepsOrStops s (pushThen v s rest) := by
  intro t ht
  rcases pushThen_cases ht with ⟨_, rfl⟩ | ⟨_, ht⟩
  · exact keepsOrStops_raise s
  · exact .trans .kept (h (s.pushed v) t ht)

theorem push_keepsOrStops (v : Byte) : ResultKeepsOrStops s (push v s) :=
  pushThen_keepsOrStops v fun _ => resultKeepsOrStops_next .kept

theorem fetchByte_keepsOrStops {rest : Byte → State → Result} (h : ∀ v u, ResultKeepsOrStops u (rest v u)) :
    ResultKeepsOrStops s (fetchByte s rest) := by
  intro t ht
  rcases fetchByte_cases ht with ⟨_, rfl⟩ | ⟨_, ht⟩
  · exact keepsOrStops_raise s
  · exact .trans .kept (h _ (s.withPc (s.pc + 1)) t ht)

theorem peekImm16_keepsOrStops {rest : Addr → State → Result} (h : ∀ a u, ResultKeepsOrStops u (rest a u)) :
    ResultKeepsOrStops s (peekImm16 s rest) := by
  intro t ht
  rcases peekImm16_cases ht with ⟨_, rfl⟩ | ⟨_, ht⟩
  · exact keepsOrStops_raise s
  · exact h _ s t ht

theorem fetchImm16_keepsOrStops {rest : Addr → State → Result} (h : ∀ a u, ResultKeepsOrStops u (rest a u)) :
    ResultKeepsOrStops s (fetchImm16 s rest) :=
  peekImm16_keepsOrStops fun a u t ht => .trans .kept (h a (u.withPc (u.pc + 2)) t ht)

theorem popTwo_keepsOrStops {rest : Byte → Byte → State → Result} (h : ∀ a b u, ResultKeepsOrStops u (rest a b u)) :
    ResultKeepsOrStops s (popTwo s rest) :=
  pop_keepsOrStops fun b _ => pop_keepsOrStops fun a u => h a b u

theorem popAddr_keepsOrStops {rest : Addr → State → Result} (h : ∀ a u, ResultKeepsOrStops u (rest a u)) :
    ResultKeepsOrStops s (popAddr s rest) := by
  rw [popAddr_eq_popTwo]
  exact popTwo_keepsOrStops fun _ _ u => h _ u

theorem binary_keepsOrStops (f : Byte → Byte → Byte) : ResultKeepsOrStops s (binary f s) :=
  popTwo_keepsOrStops fun _ _ _ => push_keepsOrStops _

theorem unary_keepsOrStops (f : Byte → Byte) : ResultKeepsOrStops s (unary f s) :=
  pop_keepsOrStops fun _ _ => push_keepsOrStops _

theorem divide_keepsOrStops (f : Byte → Byte → Byte) : ResultKeepsOrStops s (divide f s) := by
  refine popTwo_keepsOrStops fun a b u => ?_
  split
  · exact resultKeepsOrStops_next (keepsOrStops_raise u)
  · exact push_keepsOrStops _

theorem compare_keepsOrStops (rel : Byte → Byte → Bool) : ResultKeepsOrStops s (compare rel s) :=
  popTwo_keepsOrStops fun _ _ _ => push_keepsOrStops _

/-- A conditional branch: pop a byte, then jump or go on. -/
theorem branch_keepsOrStops (p : Byte → Prop) [DecidablePred p] (addr : Addr) :
    ResultKeepsOrStops s (pop s fun v s => .next (if p v then s.withPc addr.toNat else s)) := by
  refine pop_keepsOrStops fun v u => resultKeepsOrStops_next ?_
  split
  · exact .kept
  · exact .kept

theorem execPop_keepsOrStops : ResultKeepsOrStops s (execPop s) :=
  pop_keepsOrStops fun _ _ => resultKeepsOrStops_next .kept

theorem execStore_keepsOrStops (addr : Addr) : ResultKeepsOrStops s (execStore addr s) :=
  pop_keepsOrStops fun _ _ => resultKeepsOrStops_next .kept

theorem execLoadInd_keepsOrStops : ResultKeepsOrStops s (execLoadInd s) :=
  popAddr_keepsOrStops fun _ _ => push_keepsOrStops _

theorem execStoreInd_keepsOrStops : ResultKeepsOrStops s (execStoreInd s) :=
  popAddr_keepsOrStops fun _ _ => pop_keepsOrStops fun _ _ => resultKeepsOrStops_next .kept

theorem execJmp_keepsOrStops (addr : Addr) : ResultKeepsOrStops s (execJmp addr s) := resultKeepsOrStops_next .kept

theorem execCall_keepsOrStops (addr : Addr) : ResultKeepsOrStops s (execCall addr s) :=
  pushThen_keepsOrStops _ fun _ => pushThen_keepsOrStops _ fun _ => resultKeepsOrStops_next .kept

theorem execRet_keepsOrStops : ResultKeepsOrStops s (execRet s) :=
  pop_keepsOrStops fun _ _ => pop_keepsOrStops fun _ _ => resultKeepsOrStops_next .kept

theorem execDup_keepsOrStops : ResultKeepsOrStops s (execDup s) := by
  unfold execDup
  split
  · exact resultKeepsOrStops_next (keepsOrStops_raise s)
  · exact push_keepsOrStops _

end Shapes

/-! ### `IO` (R161, R162) -/

theorem hPop_keepsOrStops (s : State) : KeepsOrStops s (hPop s).2 := by
  rcases hPop_cases s with ⟨_, e⟩ | ⟨_, _, e⟩ | ⟨_, _, e⟩ <;> rw [e]
  · exact .kept
  · exact keepsOrStops_raise s
  · exact .kept

theorem hPush_keepsOrStops (v : Byte) (s : State) : KeepsOrStops s (hPush v s) := by
  rcases hPush_cases v s with ⟨_, e⟩ | ⟨_, _, e⟩ | ⟨_, _, e⟩ <;> rw [e]
  · exact .kept
  · exact keepsOrStops_raise s
  · exact .kept

theorem hPushWord_keepsOrStops (m : BitVec 16) (s : State) : KeepsOrStops s (hPushWord m s) :=
  (hPush_keepsOrStops _ s).trans (hPush_keepsOrStops _ _)

theorem hostReadChar_keepsOrStops (s : State) : KeepsOrStops s (hostReadChar s).2 := by
  unfold hostReadChar
  split
  · exact hPush_keepsOrStops _ s
  · exact .kept

theorem hostDrawPixel_keepsOrStops (s : State) : KeepsOrStops s (hostDrawPixel s).2 :=
  (hPop_keepsOrStops s).trans <| (hPop_keepsOrStops _).trans <| (hPop_keepsOrStops _).trans <|
    keepsOrStops_of_sameBlock (draw_block _ _)

/-- Five pops by the host, in a row. -/
theorem hPop_five_keepsOrStops (s : State) : KeepsOrStops s (hPop (hPop (hPop (hPop (hPop s).2).2).2).2).2 :=
  (hPop_keepsOrStops s).trans <| (hPop_keepsOrStops _).trans <| (hPop_keepsOrStops _).trans <|
    (hPop_keepsOrStops _).trans <| hPop_keepsOrStops _

/-- No operation of the host touches `running` or `error` but by a port fault. -/
theorem hostIO_keepsOrStops (id : Byte) (s : State) : KeepsOrStops s (hostIO id s).2 := by
  unfold hostIO
  split
  -- in the order of the operation table (R166): EXIT, PRINT_CHAR, READ_CHAR, DRAW_PIXEL, DRAW_LINE, FILL_RECT, REFRESH,
  -- POLL_KEY, GET_KEY, POLL_MOUSE, GET_MOUSE_X, GET_MOUSE_Y, GET_MOUSE_B, undefined
  case h_1 | h_7 | h_14 => exact .kept
  case h_2 => exact (hPop_keepsOrStops s).trans (keepsOrStops_of_sameBlock (emit_block _ _))
  case h_3 => exact hostReadChar_keepsOrStops s
  case h_4 => exact hostDrawPixel_keepsOrStops s
  case h_5 | h_6 => exact (hPop_five_keepsOrStops s).trans (keepsOrStops_of_sameBlock (draw_block _ _))
  case h_8 | h_9 | h_10 | h_13 => exact hPush_keepsOrStops _ s
  case h_11 | h_12 => exact hPushWord_keepsOrStops _ s

theorem execIo_keepsOrStops (id : Byte) (s : State) : ResultKeepsOrStops s (execIo id s) := by
  have hio := hostIO_keepsOrStops id s
  unfold execIo ioResult
  split
  · exact resultKeepsOrStops_next hio
  · split
    · exact resultKeepsOrStops_next hio
    · split
      · exact resultKeepsOrStops_next (hio.trans (keepsOrStops_halt _))
      · exact resultKeepsOrStops_next (hio.trans (keepsOrStops_raise _))

/-- `EXIT` without an error on record is the clean stop (R167). -/
theorem exec_exit {s : State} (he : s.error = .ok) : exec (.io 0x00#8) s = .next (halt s) := by
  show (if s.error ≠ .ok then Host.Outcome.next s else .next (halt s)) = .next (halt s)
  rw [if_neg (not_not.2 he)]

/-! ### The instruction and the step -/

/-- An instruction keeps `running` and `error`, or stops the block with an error recorded (R15). -/
theorem exec_keepsOrStops (i : Instr) (s : State) : ResultKeepsOrStops s (exec i s) := by
  cases i with
  | nop => exact resultKeepsOrStops_next .kept
  | halt => exact resultKeepsOrStops_next (keepsOrStops_halt s)
  | push | load => exact push_keepsOrStops _
  | pop => exact execPop_keepsOrStops
  | dup => exact execDup_keepsOrStops
  | swap => exact popTwo_keepsOrStops fun _ b _ => pushThen_keepsOrStops b fun _ => push_keepsOrStops _
  | add | sub | mul | and | or | xor | shl | shr => exact binary_keepsOrStops _
  | div | mod => exact divide_keepsOrStops _
  | neg | not => exact unary_keepsOrStops _
  | eq | neq | gt | lt | gte | lte => exact compare_keepsOrStops _
  | store addr => exact execStore_keepsOrStops addr
  | loadInd => exact execLoadInd_keepsOrStops
  | storeInd => exact execStoreInd_keepsOrStops
  | jmp addr => exact execJmp_keepsOrStops addr
  | jz addr => exact branch_keepsOrStops (· = 0#8) addr
  | jnz addr => exact branch_keepsOrStops (· ≠ 0#8) addr
  | call addr => exact execCall_keepsOrStops addr
  | ret => exact execRet_keepsOrStops
  | io id => exact execIo_keepsOrStops id s

theorem operandThen_keepsOrStops (f : OpFormat) (s : State) : ResultKeepsOrStops s (operandThen f s exec) := by
  cases f with
  | plain i => exact exec_keepsOrStops i s
  | imm8 mk => exact fetchByte_keepsOrStops fun v u => exec_keepsOrStops (mk v) u
  | addr16 mk => exact fetchImm16_keepsOrStops fun a u => exec_keepsOrStops (mk a) u
  | peek16 mk => exact peekImm16_keepsOrStops fun a u => exec_keepsOrStops (mk a) u
  | illegal => exact resultKeepsOrStops_next (keepsOrStops_raise s)

theorem instructionStep_keepsOrStops (s : State) : ResultKeepsOrStops s (instructionStep s) :=
  fetchByte_keepsOrStops fun op u => operandThen_keepsOrStops (opcodeMap op) u

/-- Everything a step can do to `running` and `error` (R31): a shutdown clears `running` and leaves `error` (D7); without one,
the block is as it was or has stopped with an error recorded. -/
theorem step_status_cases {s t : State} (h : step s = .next t) :
    (s.running = true ∧ (pumpAnswer s).shutdown = true ∧ t.running = false ∧ t.error = s.error) ∨
    ((s.running = false ∨ (pumpAnswer s).shutdown = false) ∧ KeepsOrStops s t) := by
  rcases step_cases h with ⟨hr, rfl⟩ | ⟨hr, hs, rfl⟩ | ⟨_, hs, _, rfl⟩ | ⟨_, hs, _, h⟩
  · exact .inr ⟨.inl hr, .kept⟩
  · exact .inl ⟨hr, hs, rfl, rfl⟩
  · exact .inr ⟨.inr hs, .kept⟩
  · exact .inr ⟨.inr hs, .trans .kept (instructionStep_keepsOrStops (pumped s) t h)⟩

/-- `INIT` sets `running` (R230). -/
theorem init_running {image : List Byte} {s t : State} (h : State.init image s = .next t) : t.running = true := by
  unfold State.init at h
  split at h
  · cases h
  · cases h; rfl

theorem halt_or_exit_stops {s t : State}
    (h : exec .halt s = .next t ∨ exec (.io 0x00#8) s = .next t ∧ s.error = .ok) : t.running = false := by
  rcases h with h | ⟨h, he⟩
  · cases h; rfl
  · rw [exec_exit he] at h; cases h; rfl

/-- After a step with an error on record the block does not run (R33). -/
theorem step_error_stops {s t : State} (hinv : s.Inv) (h : step s = .next t) (he : t.error ≠ .ok) :
    t.running = false := by
  rcases step_status_cases h with ⟨_, _, hr, _⟩ | ⟨_, ⟨hr, hkept⟩ | ⟨hr, _⟩⟩
  · exact hr
  · exact hr.trans (hinv.errorStops (hkept ▸ he))
  · exact hr

theorem step_shutdown_stops {s t : State} (hs : (pumpAnswer s).shutdown = true) (h : step s = .next t) :
    t.running = false := by
  rcases step_status_cases h with ⟨_, _, hr, _⟩ | ⟨hr | hs', hkeeps⟩
  · exact hr
  · exact hkeeps.stopped hr
  · simp [hs] at hs'

/-- A step from a running state that stops the block records an error, or is the host's shutdown (R42). -/
theorem step_stops_by_error_or_shutdown {s t : State} (hr : s.running = true) (h : step s = .next t)
    (ht : t.running = false) : t.error ≠ .ok ∨ (pumpAnswer s).shutdown = true := by
  rcases step_status_cases h with ⟨_, hs, _, _⟩ | ⟨_, ⟨hkept, _⟩ | ⟨_, he⟩⟩
  · exact .inr hs
  · simp [hkept, hr] at ht
  · exact .inl he

/-- Settles O55, from what one step can do to `running` and `error` (`step_status_cases`). -/
theorem runningFallsOnce : Obligations.RunningFallsOnce :=
  ⟨fun _ _ _ => init_running,
    fun _ _ => halt_or_exit_stops,
    fun _ _ => step_error_stops,
    fun _ _ => step_shutdown_stops,
    fun s t h hs => by rw [step_stopped hs] at h; cases h; exact hs,
    fun _ _ _ => step_stops_by_error_or_shutdown⟩

end Sys2Proof.Machine
end

section
/-! SUPPORT. The decoder, the disassembler and the assembler on encoded instructions (R71, R72, R77, R80, R89), and the statements
about the opcode map, the illegal opcodes and disassembly. -/

namespace Sys2Proof

open Sys2Proof.Machine Sys2Proof.Spec

/-! ### Decoding -/

/-- `(hi << 8) | lo` is the two bytes side by side (R72). -/
theorem addrOf_eq_append (hi lo : Byte) : addrOf hi lo = hi ++ lo := by
  apply BitVec.eq_of_toNat_eq
  rw [addrOf_toNat, BitVec.toNat_append, ← Nat.shiftLeft_add_eq_or_of_lt lo.isLt, Nat.shiftLeft_eq]

theorem decodeAddrOperand_low_high (mk : Addr → Instr) (addr : Addr) (rest : List Byte) :
    decodeAddrOperand mk (lowByte addr.toNat :: highByte addr.toNat :: rest) = .ok (mk addr) rest := by
  rw [decodeAddrOperand, addrOf_high_low]

/-- Decoding gives an encoded instruction back and leaves the bytes after it (R71, R79). -/
@[simp] theorem decode_encode_append (i : Instr) (rest : List Byte) : decode (encode i ++ rest) = .ok i rest := by
  cases i with
  | load addr | store addr | jmp addr | jz addr | jnz addr | call addr => exact decodeAddrOperand_low_high _ addr rest
  | _ => rfl

/-- Settles O3: with the address operand as the decoder writes it, each row is what the decoder computes. -/
theorem opcodeMapDecodes : Obligations.OpcodeMapDecodes := by
  intro v lo hi
  rw [← addrOf_eq_append hi lo]
  and_intros <;> rfl

/-! ### Illegal opcodes -/

/-- The opcode map ends at `0x21` (R76, R77). -/
theorem opcodeMap_eq_illegal_iff (op : Byte) : opcodeMap op = .illegal ↔ 0x22 ≤ op.toNat := by
  constructor
  · contrapose!
    intro hlt
    rw [opcodeMap]
    interval_cases op.toNat <;> nofun
  · intro hle
    obtain ⟨n, hn⟩ := Nat.exists_eq_add_of_le' hle
    rw [opcodeMap, hn]
    rfl

theorem decodeByteOperand_ne_illegalOpcode (mk : Byte → Instr) (bs : List Byte) (op : Byte) :
    decodeByteOperand mk bs ≠ .illegalOpcode op := by
  cases bs <;> nofun

theorem decodeAddrOperand_ne_illegalOpcode (mk : Addr → Instr) (bs : List Byte) (op : Byte) :
    decodeAddrOperand mk bs ≠ .illegalOpcode op := by
  unfold decodeAddrOperand
  split <;> nofun

theorem decode_cons_eq_illegalOpcode_iff (op : Byte) (rest : List Byte) :
    decode (op :: rest) = .illegalOpcode op ↔ opcodeMap op = .illegal := by
  rw [decode]
  cases opcodeMap op with
  | plain => simp
  | imm8 mk => simp [decodeByteOperand_ne_illegalOpcode]
  | addr16 mk | peek16 mk => simp [decodeAddrOperand_ne_illegalOpcode]
  | illegal => simp

/-- An instruction step on an illegal opcode: the opcode byte is fetched, then `InvalidOpcode` is raised (R75, R77). -/
theorem instructionStep_illegal {s : State} (hpc : s.pc < 65536) (hop : opcodeMap (s.mem.read s.pc) = .illegal) :
    instructionStep s = .next (raise .invalidOpcode (s.withPc (s.pc + 1))) := by
  rw [instructionStep, fetchThen, fetchByte_ok (Nat.le_of_lt_succ hpc), hop, operandThen]

/-- Settles O4, from where the opcode map ends (`opcodeMap_eq_illegal_iff`). -/
theorem illegalOpcodesExactly : Obligations.IllegalOpcodesExactly := by
  constructor
  · intro op rest
    rw [decode_cons_eq_illegalOpcode_iff, opcodeMap_eq_illegal_iff]
  · rintro s ⟨hrun, hpump, hwait⟩ hpc hop
    rw [step_fetches hrun hpump hwait]
    exact instructionStep_illegal hpc ((opcodeMap_eq_illegal_iff _).2 hop)

/-! ### Disassembly -/

/-- One instruction read takes one unit of fuel. -/
theorem disassembleUpTo_encode_append (n : Nat) (i : Instr) (bs : List Byte) :
    disassembleUpTo (n + 1) (encode i ++ bs) = (disassembleUpTo n bs).map (i :: ·) := by
  rw [disassembleUpTo, decode_encode_append]
  nofun

/-- Fuel for every byte suffices, since no encoding is empty. -/
theorem disassembleUpTo_flatMap_encode (prog : List Instr) {n : Nat} (hn : (prog.flatMap encode).length ≤ n) :
    disassembleUpTo n (prog.flatMap encode) = some prog := by
  induction prog generalizing n with
  | nil => simp [disassembleUpTo]
  | cons i prog ih =>
    simp only [List.flatMap_cons, List.length_append, encode, List.length_cons] at hn
    obtain ⟨m, rfl⟩ : ∃ m, n = m + 1 := ⟨n - 1, by omega⟩
    rw [List.flatMap_cons, disassembleUpTo_encode_append, ih (by omega), Option.map_some]

theorem disassemble_flatMap_encode (prog : List Instr) : disassemble (prog.flatMap encode) = some prog :=
  disassembleUpTo_flatMap_encode prog (Nat.le_refl _)

end Sys2Proof

namespace Sys2Proof.Assembler

/-! ### The assembler on statements with numeric operands -/

theorem emitBytes_ok {p q : PassState} {bytes : List Byte} (h : emitBytes p bytes = .ok q) :
    q = { p with out := p.out ++ bytes } := by
  unfold emitBytes at h
  split at h
  · cases h; rfl
  · cases h

/-- Pass one on numeric-operand statements only appends their encodings: no label, no patch request, no warning (R89). -/
theorem passOne_plain {prog : List Instr} {p q : PassState} (h : passOne p (prog.map .plain) = .ok q) :
    q = { p with out := p.out ++ prog.flatMap encode } := by
  induction prog generalizing p with
  | nil => cases h; simp
  | cons i prog ih =>
    rw [List.map_cons, passOne, passItem] at h
    split at h
    · cases h
    · next r hr =>
      rw [ih h, emitBytes_ok hr]; simp

/-- The image of numeric-operand statements is their encodings in sequence (R89, R91). -/
theorem assembleItems_plain_image {prog : List Instr} {o : Output} (h : assembleItems (prog.map .plain) = .ok o) :
    o.image = prog.flatMap encode := by
  unfold assembleItems at h
  cases hq : passOne PassState.start (prog.map .plain) with
  | error e => rw [hq] at h; cases h
  | ok q => rw [hq, passOne_plain hq] at h; cases h; rfl

/-- Settles O1: the assembled image too is the encodings in sequence, and disassembly reads these back one at a time. -/
theorem disassemblyInvertsEncoding : Obligations.DisassemblyInvertsEncoding := by
  refine fun prog => ⟨disassemble_flatMap_encode prog, fun o h => ?_⟩
  rw [assembleItems_plain_image h, disassemble_flatMap_encode]

end Sys2Proof.Assembler
end

section
/-! SUPPORT. The fetch of an encoded instruction and of an operand past the top of memory (R58, R73, R74), for every
instruction, and the statement about `PUSH`. -/

namespace Sys2Proof.Machine

open Sys2Proof.Spec

/-! ### The fetch primitives on the bytes at `PC` -/

/-- The first of the bytes a fetch can see lies inside memory, and the rest are those seen from the next address. -/
theorem bytesFrom_succ_eq_cons {m : Memory} {a n : Nat} {v : Byte} {bs : List Byte} (h : m.bytesFrom a (n + 1) = v :: bs) :
    a ≤ 0xFFFF ∧ m.read a = v ∧ m.bytesFrom (a + 1) n = bs := by
  unfold Memory.bytesFrom at h
  split at h
  · next ha =>
    obtain ⟨hv, hbs⟩ := List.cons.inj h
    exact ⟨Nat.le_of_lt_succ ha, hv, hbs⟩
  · cases h

theorem fetchByte_of_bytesFrom {s : State} {n : Nat} {v : Byte} {bs : List Byte} {rest : Byte → State → Result}
    (h : s.mem.bytesFrom s.pc (n + 1) = v :: bs) : fetchByte s rest = rest v (s.withPc (s.pc + 1)) := by
  obtain ⟨hpc, hv, -⟩ := bytesFrom_succ_eq_cons h
  rw [fetchByte_ok hpc, hv]

theorem peekImm16_of_bytesFrom {s : State} {n : Nat} {addr : Addr} {bs : List Byte} {rest : Addr → State → Result}
    (h : s.mem.bytesFrom s.pc (n + 2) = lowByte addr.toNat :: highByte addr.toNat :: bs) :
    peekImm16 s rest = rest addr s := by
  obtain ⟨-, hlo, h⟩ := bytesFrom_succ_eq_cons h
  obtain ⟨hpc, hhi, -⟩ := bytesFrom_succ_eq_cons h
  rw [peekImm16_ok hpc, hlo, hhi, addrOf_high_low]

/-! ### The fetch of an encoded instruction -/

/-- The operand fetch that the opcode of `i` asks for reads `i`, and leaves `PC` where R24 says: past the operand, or before it
for `JMP`. -/
theorem operandThen_of_bytesFrom {i : Instr} {s : State} {bs : List Byte} {run : Instr → State → Result}
    (h : s.mem.bytesFrom s.pc 2 = operandBytes i ++ bs) :
    operandThen (opcodeMap (opcodeOf i)) s run = run i (s.withPc (s.pc + (fetchAdvance i - 1))) := by
  cases i with
  | push | io =>
    unfold operandThen
    exact fetchByte_of_bytesFrom h
  | load | store | jz | jnz | call | jmp =>
    unfold operandThen
    exact peekImm16_of_bytesFrom h
  | _ => rfl

/-- Where the bytes at `PC` begin with an encoding, the fetch hands on its instruction (R73 to R75). -/
theorem fetchThen_of_bytesFrom {i : Instr} {s : State} {bs : List Byte} {run : Instr → State → Result}
    (h : s.mem.bytesFrom s.pc 3 = encode i ++ bs) : fetchThen s run = run i (s.withPc (s.pc + fetchAdvance i)) := by
  have hadvance : s.pc + 1 + (fetchAdvance i - 1) = s.pc + fetchAdvance i := by cases i <;> rfl
  obtain ⟨-, -, hoperand⟩ := bytesFrom_succ_eq_cons h
  rw [fetchThen, fetchByte_of_bytesFrom h, operandThen_of_bytesFrom (s := s.withPc (s.pc + 1)) hoperand]
  exact congrArg (fun n => run i (s.withPc n)) hadvance

theorem fetchedWith_fetchAdvance (i : Instr) : FetchedWith i (fetchAdvance i) := by
  rintro s rest ⟨hrun, hpump, hwait⟩ hbytes
  rw [step_fetches hrun hpump hwait]
  exact fetchThen_of_bytesFrom hbytes

/-- An opcode whose operand fetch faults wherever the operand would end past the top of memory: seen from the operand, an
instruction of `len` bytes ends at `PC - 1 + len`. -/
theorem operandFetchFaults_of_operandThen {op : Byte} {len : Nat}
    (h : ∀ t : State, 65536 < t.pc - 1 + len → operandThen (opcodeMap op) t exec = .next (raise .invalidAddress t)) :
    OperandFetchFaults op len := by
  rintro s ⟨hrun, hpump, hwait⟩ hpc rfl hend
  rw [step_fetches hrun hpump hwait]
  calc fetchThen (pumped s) exec
    _ = operandThen (opcodeMap (s.mem.read s.pc)) ((pumped s).withPc (s.pc + 1)) exec :=
        fetchByte_ok (Nat.le_of_lt_succ hpc)
    _ = _ := h _ hend

theorem operandFetchFaults_imm8 {op : Byte} {mk : Byte → Instr} (hop : opcodeMap op = .imm8 mk) :
    OperandFetchFaults op 2 := by
  refine operandFetchFaults_of_operandThen fun t hend => ?_
  rw [hop, operandThen]
  exact fetchByte_past (by omega)

/-! ### `PUSH` -/

/-- An instruction that is one push obeys the rule for it (R27). -/
theorem pushRule_of_exec_eq_push {i : Instr} {v : State → Byte} (h : ∀ s, exec i s = push (v s) s) : PushRule i v := by
  intro s
  rw [h s]
  exact ⟨fun hroom => push_next hroom (v s), fun hfull => push_full (sp_eq_full hfull)⟩

/-- Settles O5: `PUSH` is one push, and its one operand byte is fetched as every instruction's operand is. -/
theorem pushPushesImmediate : Obligations.PushPushesImmediate :=
  ⟨fun v => ⟨rfl, fetchedWith_fetchAdvance (.push v), pushRule_of_exec_eq_push fun _ => rfl⟩,
    operandFetchFaults_imm8 (mk := .push) rfl⟩

end Sys2Proof.Machine
end

section
/-! SUPPORT. What an instruction does that pops two bytes and pushes one, or replaces the top byte (R110), and the statements
about the arithmetic and logic instructions. -/

namespace Sys2Proof.Machine

open Sys2Proof.Spec

/-! ### The shapes `Binary`, `Unary` and division as rules -/

section Rules
variable {i : Instr}

/-- Two pops read the bytes of the stack: the top is the second argument (R26, R110). -/
theorem popTwo_stackBytes {s : State} (h : 2 ≤ s.depth) (rest : Byte → Byte → State → Result) :
    popTwo s rest = rest (stackByte s 1) (stackByte s 0) { s with sp := s.sp + 2 } :=
  popTwo_ok h rest

/-- An instruction that begins with two pops has their underflows, whatever comes after them (R110, R130, D4). -/
theorem underflowOfTwo_of_exec_eq_popTwo {rest : Byte → Byte → State → Result} (hexec : ∀ s, exec i s = popTwo s rest) :
    UnderflowOfTwo i :=
  fun s => ⟨fun hone => (hexec s).trans (popTwo_one hone rest), fun hzero => (hexec s).trans (popTwo_zero hzero rest)⟩

theorem stopsWith_of_underflowOfTwo {s : State} (hunder : UnderflowOfTwo i) (h : s.depth < 2) :
    StopsWith i s .stackUnderflow := by
  obtain hzero | hone : s.depth = 0 ∨ s.depth = 1 := by omega
  · exact ⟨_, (hunder s).2 hzero, rfl, rfl⟩
  · exact ⟨_, (hunder s).1 hone, rfl, rfl⟩

/-- After two pops the push of `f a b` gives the result `f` (R110, R130). -/
theorem twoToOneResult_of_exec_eq_push {s : State} {f : Nat → Nat → Nat} (h : 2 ≤ s.depth)
    (hexec : exec i s =
      push (BitVec.ofNat 8 (f (stackByte s 1).toNat (stackByte s 0).toNat)) { s with sp := s.sp + 2 }) :
    TwoToOneResult i f s :=
  hexec.trans (push_after_popTwo h _)

/-- An instruction of the shape `Binary(g)` obeys the rule for the function on naturals that `g` computes (R110). -/
theorem binaryRule_of_exec_eq_binary {g : Byte → Byte → Byte} {f : Nat → Nat → Nat} (hexec : ∀ s, exec i s = binary g s)
    (hg : ∀ a b, g a b = BitVec.ofNat 8 (f a.toNat b.toNat)) : BinaryRule i f := by
  refine fun s => ⟨fun htwo => twoToOneResult_of_exec_eq_push htwo ?_, fun hfew => ?_⟩
  · rw [hexec, binary, popTwo_stackBytes htwo, hg]
  · exact stopsWith_of_underflowOfTwo (underflowOfTwo_of_exec_eq_popTwo hexec) hfew

/-- An instruction of the shape of `DIV` obeys its rule: the divisor is tested after both pops (R114, R115). -/
theorem divideRule_of_exec_eq_divide {g : Byte → Byte → Byte} {f : Nat → Nat → Nat} (hexec : ∀ s, exec i s = divide g s)
    (hg : ∀ a b, g a b = BitVec.ofNat 8 (f a.toNat b.toNat)) : DivideRule i f := by
  refine fun s => ⟨fun htwo hb => twoToOneResult_of_exec_eq_push htwo ?_, fun htwo hb => ?_, fun hfew => ?_⟩
  · rw [hexec, divide, popTwo_stackBytes htwo, if_neg hb, hg]
  · rw [hexec, divide, popTwo_stackBytes htwo, if_pos hb]; rfl
  · exact stopsWith_of_underflowOfTwo (underflowOfTwo_of_exec_eq_popTwo hexec) hfew

/-- An instruction of the shape `Unary(g)` obeys the rule for the function on naturals that `g` computes (R110). -/
theorem unaryRule_of_exec_eq_unary {g : Byte → Byte} {f : Nat → Nat} (hexec : ∀ s, exec i s = unary g s)
    (hg : ∀ a, g a = BitVec.ofNat 8 (f a.toNat)) : UnaryRule i f := by
  refine fun s => ⟨fun hone => ?_, fun hzero => ?_⟩
  · rw [hexec, unary_ok g hone, hg]; rfl
  · rw [hexec, unary, pop_empty (sp_eq_empty hzero)]; rfl

end Rules

/-! ### The shifts on naturals -/

/-- A count of 8 or more gives 0 and is not taken modulo 8 (R121). -/
theorem aluShl_eq_ofNat (a b : Byte) :
    aluShl a b = BitVec.ofNat 8 (if 8 ≤ b.toNat then 0 else (a.toNat <<< b.toNat) % 256) :=
  (apply_ite (BitVec.ofNat 8) _ _ _).symm

/-- A count of 8 or more gives 0 and is not taken modulo 8 (R122). -/
theorem aluShr_eq_ofNat (a b : Byte) : aluShr a b = BitVec.ofNat 8 (if 8 ≤ b.toNat then 0 else a.toNat >>> b.toNat) :=
  (apply_ite (BitVec.ofNat 8) _ _ _).symm

/-! ### The statements -/

/-- Settles O10: each is `Binary` of a function defined on naturals. -/
theorem addSubMulResult : Obligations.AddSubMulResult :=
  ⟨rfl, rfl, rfl,
    binaryRule_of_exec_eq_binary (g := aluAdd) (fun _ => rfl) fun _ _ => rfl,
    binaryRule_of_exec_eq_binary (g := aluSub) (fun _ => rfl) fun _ _ => rfl,
    binaryRule_of_exec_eq_binary (g := aluMul) (fun _ => rfl) fun _ _ => rfl⟩

/-- Settles O11: each has the shape of `DIV`, where the divisor is tested after both pops. -/
theorem divModResult : Obligations.DivModResult :=
  ⟨rfl, rfl,
    divideRule_of_exec_eq_divide (g := aluDiv) (fun _ => rfl) fun _ _ => rfl,
    divideRule_of_exec_eq_divide (g := aluMod) (fun _ => rfl) fun _ _ => rfl⟩

/-- Settles O12: each is `Unary` of a function defined on naturals. -/
theorem negNotResult : Obligations.NegNotResult :=
  ⟨rfl, rfl,
    unaryRule_of_exec_eq_unary (g := aluNeg) (fun _ => rfl) fun _ => rfl,
    unaryRule_of_exec_eq_unary (g := aluNot) (fun _ => rfl) fun _ => rfl⟩

/-- Settles O13: each is `Binary` of a bitwise operation on naturals. -/
theorem andOrXorResult : Obligations.AndOrXorResult :=
  ⟨rfl, rfl, rfl,
    binaryRule_of_exec_eq_binary (g := aluAnd) (fun _ => rfl) fun _ _ => rfl,
    binaryRule_of_exec_eq_binary (g := aluOr) (fun _ => rfl) fun _ _ => rfl,
    binaryRule_of_exec_eq_binary (g := aluXor) (fun _ => rfl) fun _ _ => rfl⟩

/-- Settles O14: each is `Binary` of a shift, which tests its count before it shifts. -/
theorem shiftResult : Obligations.ShiftResult :=
  ⟨rfl, rfl,
    binaryRule_of_exec_eq_binary (fun _ => rfl) aluShl_eq_ofNat,
    binaryRule_of_exec_eq_binary (fun _ => rfl) aluShr_eq_ofNat⟩

end Sys2Proof.Machine
end

section
/-! SUPPORT. What a comparison does: two pops, then the push of a truth byte (R130), and the statement about the comparisons. -/

namespace Sys2Proof.Machine

open Sys2Proof.Spec

/-- The truth byte is the number 1 or 0 (R130). -/
theorem truthByte_eq_ofNat (holds : Bool) : truthByte holds = BitVec.ofNat 8 (if holds then 1 else 0) :=
  (apply_ite (BitVec.ofNat 8) _ _ _).symm

/-- An instruction of the shape `Compare(g)` obeys the rule for the relation on naturals that `g` decides (R130). -/
theorem compareRule_of_exec_eq_compare {i : Instr} {g : Byte → Byte → Bool} {rel : Nat → Nat → Bool}
    (hexec : ∀ s, exec i s = compare g s) (hg : ∀ a b, g a b = rel a.toNat b.toNat) : CompareRule i rel := by
  refine ⟨fun s htwo => twoToOneResult_of_exec_eq_push htwo ?_, underflowOfTwo_of_exec_eq_popTwo hexec⟩
  rw [hexec, compare, popTwo_stackBytes htwo, hg, truthByte_eq_ofNat]

/-- Settles O17: each is `Compare` of a relation on the bytes as naturals, hence unsigned. -/
theorem compareResult : Obligations.CompareResult :=
  ⟨rfl, rfl, rfl, rfl, rfl, rfl,
    compareRule_of_exec_eq_compare (g := relEq) (fun _ => rfl) fun _ _ => rfl,
    compareRule_of_exec_eq_compare (g := relNeq) (fun _ => rfl) fun _ _ => rfl,
    compareRule_of_exec_eq_compare (g := relGt) (fun _ => rfl) fun _ _ => rfl,
    compareRule_of_exec_eq_compare (g := relLt) (fun _ => rfl) fun _ _ => rfl,
    compareRule_of_exec_eq_compare (g := relGte) (fun _ => rfl) fun _ _ => rfl,
    compareRule_of_exec_eq_compare (g := relLte) (fun _ => rfl) fun _ _ => rfl⟩

end Sys2Proof.Machine
end

section
/-! SUPPORT. The encoding and the operand fetch of an instruction with a 2-byte operand (R71, R74), one pop before the rest of an
instruction, and the statements about `LOAD`, `STORE` and `LOAD_IND`. -/

namespace Sys2Proof.Machine

open Sys2Proof.Spec

/-! ### Instructions with a 2-byte operand -/

/-- An address has two bytes, so its high byte needs no `mod` (R71, R72). -/
theorem highByte_addr (addr : Addr) : highByte addr.toNat = BitVec.ofNat 8 (addr.toNat / 256) := by
  have haddr := addr.isLt
  rw [highByte, Nat.mod_eq_of_lt (by omega)]

theorem encode_eq_a16 {i : Instr} {addr : Addr} (h : operandBytes i = [lowByte addr.toNat, highByte addr.toNat]) :
    encode i = a16 (opcodeOf i) addr := by
  rw [encode, h, highByte_addr, lowByte, a16]

theorem operandFetchFaults_addr16 {op : Byte} {mk : Addr → Instr} (hop : opcodeMap op = .addr16 mk) :
    OperandFetchFaults op 3 := by
  refine operandFetchFaults_of_operandThen fun t hend => ?_
  rw [hop, operandThen]
  exact fetchImm16_past (by omega)

/-! ### `LOAD` and `STORE` -/

/-- A pop on a stack that is not empty hands on the top byte (R28). -/
theorem pop_stackByte {s : State} (h : 1 ≤ s.depth) (rest : Byte → State → Result) :
    pop s rest = rest (stackByte s 0) { s with sp := s.sp + 1 } :=
  pop_ok (sp_ne_empty h)

theorem exec_store (addr : Addr) (s : State) : exec (.store addr) s = pop s fun v t => .next (t.withByte addr v) := rfl

/-- Settles O18: `LOAD` is one push, `STORE` one pop and a write, and the operand of each is fetched whole or not at all. -/
theorem loadAndStoreResult : Obligations.LoadAndStoreResult := by
  refine ⟨fun addr => ⟨encode_eq_a16 rfl, fetchedWith_fetchAdvance (.load addr), pushRule_of_exec_eq_push fun _ => rfl⟩,
    operandFetchFaults_addr16 (mk := .load) rfl,
    fun addr => ⟨encode_eq_a16 rfl, fetchedWith_fetchAdvance (.store addr), fun s => ⟨fun hone => ?_, fun hzero => ?_⟩⟩,
    operandFetchFaults_addr16 (mk := .store) rfl⟩
  · rw [exec_store, pop_stackByte hone]; rfl
  · rw [exec_store, pop_empty (sp_eq_empty hzero)]; rfl

/-! ### `LOAD_IND` -/

/-- `LOAD_IND` pops the high byte second, and reads the memory that the pops have left as it was (R142). -/
theorem exec_loadInd_eq_popTwo (s : State) :
    exec .loadInd s = popTwo s fun hi lo t => push (t.byteAt (addrOf hi lo)) t :=
  popAddr_eq_popTwo s fun addr t => push (t.byteAt addr) t

/-- Settles O19: two pops give the address, and the push after them writes at `SP + 1`. -/
theorem loadIndPushesByte : Obligations.LoadIndPushesByte := by
  refine ⟨rfl, fun s htwo => ?_, underflowOfTwo_of_exec_eq_popTwo exec_loadInd_eq_popTwo⟩
  rw [exec_loadInd_eq_popTwo, popTwo_stackBytes htwo, push_after_popTwo htwo, State.byteAt, addrOf_toNat]

end Sys2Proof.Machine
end

section
/-! SUPPORT. The operand peek of `JMP` past the top of memory (R74), what a conditional branch does once its byte is popped, and
the statements about `JMP`, `JZ`, `JNZ` and `RET`. -/

namespace Sys2Proof.Machine

open Sys2Proof.Spec

/-! ### `JMP`, `JZ` and `JNZ` -/

theorem operandFetchFaults_peek16 {op : Byte} {mk : Addr → Instr} (hop : opcodeMap op = .peek16 mk) :
    OperandFetchFaults op 3 := by
  refine operandFetchFaults_of_operandThen fun t hend => ?_
  rw [hop, operandThen]
  exact peekImm16_past (by omega)

section Branch
variable {p : Byte → Prop} [DecidablePred p] {i : Instr} {addr : Addr} {s : State}
  (hexec : exec i s = pop s fun v t => .next (if p v then t.withPc addr.toNat else t))

include hexec

/-- The popped byte decides, and it is consumed also where the branch is taken (R151, R152). -/
theorem exec_branch_taken (hone : 1 ≤ s.depth) (hp : p (stackByte s 0)) :
    exec i s = .next { s with sp := s.sp + 1, pc := addr.toNat } := by
  rw [hexec, pop_stackByte hone, if_pos hp]; rfl

/-- Where the branch is not taken the byte is consumed all the same, and `PC` stays past the instruction (R151, R152). -/
theorem exec_branch_not_taken (hone : 1 ≤ s.depth) (hp : ¬ p (stackByte s 0)) :
    exec i s = .next { s with sp := s.sp + 1 } := by
  rw [hexec, pop_stackByte hone, if_neg hp]

end Branch

/-- An instruction that begins with a pop underflows on the empty stack, whatever comes after the pop (R28). -/
theorem exec_underflow_of_exec_eq_pop {i : Instr} {s : State} {rest : Byte → State → Result} (hexec : exec i s = pop s rest)
    (hzero : s.depth = 0) : exec i s = .next (stopped s .stackUnderflow) :=
  hexec.trans (pop_empty (sp_eq_empty hzero))

theorem exec_jz (addr : Addr) (s : State) :
    exec (.jz addr) s = pop s fun v t => .next (if v = 0#8 then t.withPc addr.toNat else t) := rfl

theorem exec_jnz (addr : Addr) (s : State) :
    exec (.jnz addr) s = pop s fun v t => .next (if v ≠ 0#8 then t.withPc addr.toNat else t) := rfl

/-- Settles O22: `JZ` and `JNZ` are the branch on one popped byte, with opposite conditions; the operand of `JMP` is only
peeked at, so its fetch moves `PC` by one. -/
theorem jumpAndBranchResult : Obligations.JumpAndBranchResult := by
  refine ⟨fun addr => ⟨encode_eq_a16 rfl, encode_eq_a16 rfl, encode_eq_a16 rfl, fetchedWith_fetchAdvance (.jmp addr),
      fetchedWith_fetchAdvance (.jz addr), fetchedWith_fetchAdvance (.jnz addr)⟩,
    operandFetchFaults_peek16 (mk := .jmp) rfl, operandFetchFaults_addr16 (mk := .jz) rfl,
    operandFetchFaults_addr16 (mk := .jnz) rfl, fun addr s => ⟨rfl, fun hone hv => ?_, fun hone hv => ?_, fun hzero => ?_⟩⟩
  · exact ⟨exec_branch_taken (exec_jz addr s) hone hv, exec_branch_not_taken (exec_jnz addr s) hone (not_not.2 hv)⟩
  · exact ⟨exec_branch_not_taken (exec_jz addr s) hone hv, exec_branch_taken (exec_jnz addr s) hone hv⟩
  · exact ⟨exec_underflow_of_exec_eq_pop (exec_jz addr s) hzero, exec_underflow_of_exec_eq_pop (exec_jnz addr s) hzero⟩

/-! ### `RET` -/

/-- `RET` pops the high byte first, so the low byte is the one below the top (R154). -/
theorem exec_ret_eq_popTwo (s : State) :
    exec .ret s = popTwo s fun lo hi t => .next (t.withPc (addrOf hi lo).toNat) := rfl

/-- Settles O24: two pops give the return address, and `PC` moves only after both. -/
theorem retPopsReturnAddress : Obligations.RetPopsReturnAddress := by
  refine ⟨rfl, fetchedWith_fetchAdvance .ret, fun s htwo => ?_, underflowOfTwo_of_exec_eq_popTwo exec_ret_eq_popTwo⟩
  rw [exec_ret_eq_popTwo, popTwo_stackBytes htwo, addrOf_toNat]; rfl

end Sys2Proof.Machine
end

section
/-! SUPPORT. The host's stack port by the depth of the stack (R48), what painting a list of pixels does to the framebuffer (R180,
R181), and the statements about `HALT`, `FILL_RECT`, the polls and `GET_MOUSE_B`. -/

namespace Sys2Proof.Machine

open Sys2Proof.Spec

/-! ### `HALT` -/

/-- Settles O26: the stop is the whole instruction, and its fetch is that of every instruction of one byte. -/
theorem haltStopsCleanly : Obligations.HaltStopsCleanly := ⟨rfl, fetchedWith_fetchAdvance .halt, fun _ => rfl⟩

/-! ### A transaction without a fault (R48, R161) -/

/-- A transaction that ends with `OK` and no fault on record gives its state as the next one (R161). -/
theorem ioResult_ok {s : State} (id : Byte) (he : s.error = .ok) : ioResult id (.ok, s) = .next s := by
  rw [ioResult, if_neg (not_not.2 he)]

theorem exec_io_ok {id : Byte} {s t : State} (hio : hostIO id s = (.ok, t)) (he : t.error = .ok) :
    exec (.io id) s = .next t := by
  calc exec (.io id) s
    _ = ioResult id (hostIO id s) := rfl
    _ = .next t := by rw [hio, ioResult_ok id he]

/-- The host's push on a stack that is not full, field by field (R48). -/
theorem hPush_next {s : State} (he : s.error = .ok) (hroom : s.depth < 0xFFFF) (v : Byte) :
    hPush v s = { s with sp := s.sp - 1, mem := s.mem.write (s.sp.toNat - 1) v } := by
  rw [hPush, if_neg (not_not.2 he), if_neg (sp_ne_full hroom)]
  simp only [State.pushed, State.withByte, State.withSp, sp_pred_toNat hroom]

/-- The state after `k` pops (R28). -/
def State.poppedTimes (s : State) (k : Nat) : State := s.withSp (s.sp + BitVec.ofNat 16 k)

@[simp] theorem poppedTimes_zero (s : State) : s.poppedTimes 0 = s := by simp [State.poppedTimes, State.withSp]

@[simp] theorem poppedTimes_error (s : State) (k : Nat) : (s.poppedTimes k).error = s.error := rfl

theorem popped_poppedTimes (s : State) (k : Nat) : (s.poppedTimes k).popped = s.poppedTimes (k + 1) := by
  simp [State.poppedTimes, State.popped, State.withSp, BitVec.ofNat_add, BitVec.add_assoc]

theorem poppedTimes_sp_toNat {s : State} {k : Nat} (h : k ≤ s.depth) : (s.poppedTimes k).sp.toNat = s.sp.toNat + k := by
  have hdepth := depth_add_sp s
  rw [State.poppedTimes, withSp_sp, BitVec.toNat_add, BitVec.toNat_ofNat]
  omega

/-- The host's pop after `k` pops, while there are bytes left: the byte `k` places below the top (R26, R48). -/
theorem hPop_poppedTimes {s : State} {k : Nat} (he : s.error = .ok) (h : k < s.depth) :
    hPop (s.poppedTimes k) = (stackByte s k, s.poppedTimes (k + 1)) := by
  have hsp := poppedTimes_sp_toNat h.le
  have hdepth := depth_add_sp s
  have hne : (s.poppedTimes k).sp ≠ 0xFFFF#16 := sp_ne_empty (by rw [State.depth, hsp]; omega)
  rw [hPop, poppedTimes_error, if_neg (not_not.2 he), if_neg hne, popped_poppedTimes, State.byteAt, hsp]
  rfl

/-! ### Painting (R180, R181) -/

/-- The four bytes side by side are the rule's shifts and ors (R180). -/
theorem grey_eq_greyWord (c : Byte) : grey c = greyWord c := by
  calc grey c
    _ = (grey c).setWidth 32 := (BitVec.setWidth_eq _).symm
    _ = (((0xFF#8).setWidth 32 <<< 8 ||| c.setWidth 32) <<< 8 ||| c.setWidth 32) <<< 8 ||| c.setWidth 32 := by
        simp only [grey, BitVec.setWidth_append_eq_shiftLeft_setWidth_or]
    _ = greyWord c := by
        simp only [greyWord, BitVec.shiftLeft_or_distrib, ← BitVec.shiftLeft_add]; rfl

/-- A pixel read after a list of pixels is painted in one colour: no other pixel changes, and outside the framebuffer none
is painted. -/
theorem fbRead_paint (fb : Framebuffer) (pixels : List (Nat × Nat)) (c : Argb) (px py : Nat) :
    (fb.paint (pixels.map (·, c))).read px py =
      if (px, py) ∈ pixels ∧ px < Config.screenWidth ∧ py < Config.screenHeight then some c else fb.read px py := by
  induction pixels with
  | nil => simp [Framebuffer.paint]
  | cons p rest ih =>
    obtain ⟨x, y⟩ := p
    rw [List.map_cons, Framebuffer.paint, fbRead_set, ih]
    by_cases hp : px = x ∧ py = y
    · obtain ⟨rfl, rfl⟩ := hp
      by_cases hin : px < Config.screenWidth ∧ py < Config.screenHeight <;> simp [hin]
    · rw [if_neg fun h => hp ⟨h.1, h.2.1⟩]
      simp [hp]

/-- Painting the pixels of `on` in the grey of `c` is what R180 and R181 ask for. -/
theorem painted_paint (fb : Framebuffer) {pixels : List (Nat × Nat)} (c : Byte) {on : Nat → Nat → Prop}
    (hon : ∀ x y, (x, y) ∈ pixels ↔ on x y) : Painted fb (fb.paint (pixels.map (·, grey c))) c on := by
  intro x y
  rw [fbRead_paint, grey_eq_greyWord, ← hon]
  exact ⟨fun h => if_pos h, fun h => if_neg h⟩

/-- Drawing without a fault on record changes the framebuffer alone. -/
theorem draw_ok {s : State} (he : s.error = .ok) (ps : List ((Nat × Nat) × Argb)) :
    draw ps s = mapHost s fun h => { h with framebuffer := h.framebuffer.paint ps } := by
  rw [draw, if_neg (not_not.2 he)]
  rfl

/-! ### `FILL_RECT` -/

/-- The pixels of the rectangle are those of `[x, x+w) × [y, y+h)` (R172). -/
theorem mem_rectPixels (x y w h : Byte) (px py : Nat) :
    (px, py) ∈ rectPixels x y w h ↔
      x.toNat ≤ px ∧ px < x.toNat + w.toNat ∧ y.toNat ≤ py ∧ py < y.toNat + h.toNat := by
  simp only [rectPixels, List.mem_flatMap, List.mem_map, List.mem_range, Prod.mk.injEq]
  constructor
  · rintro ⟨j, hj, i, hi, rfl, rfl⟩
    omega
  · rintro ⟨hx, hxw, hy, hyh⟩
    exact ⟨py - y.toNat, by omega, px - x.toNat, by omega, by omega, by omega⟩

/-- `FILL_RECT` on a stack of at least five bytes: colour, h, w, y, x in the order they are popped (R172). -/
theorem hostFillRect_ok {s : State} (he : s.error = .ok) (h : 5 ≤ s.depth) :
    hostFillRect s = (.ok, draw ((rectPixels (stackByte s 4) (stackByte s 3) (stackByte s 2) (stackByte s 1)).map
      (·, grey (stackByte s 0))) (s.poppedTimes 5)) := by
  have hfirst : hPop s = (stackByte s 0, s.poppedTimes 1) := by
    simpa using hPop_poppedTimes (k := 0) he (by omega)
  simp only [hostFillRect, hfirst, hPop_poppedTimes (k := 1) he (by omega), hPop_poppedTimes (k := 2) he (by omega),
    hPop_poppedTimes (k := 3) he (by omega), hPop_poppedTimes (k := 4) he (by omega)]

/-- Settles O30: five pops, then the pixels of the rectangle (`mem_rectPixels`) are painted. -/
theorem fillRectPaintsRectangle : Obligations.FillRectPaintsRectangle := by
  intro s he hfive
  refine ⟨_, ?_, painted_paint s.host.framebuffer (stackByte s 0) (mem_rectPixels _ _ _ _)⟩
  refine exec_io_ok ?_ he
  calc hostIO 0x12#8 s
    _ = hostFillRect s := rfl
    _ = _ := by rw [hostFillRect_ok he hfive, draw_ok (s := s.poppedTimes 5) he]; rfl

/-! ### The polls and `GET_MOUSE_B` -/

/-- An operation that pushes one byte and ends with `OK`, on a stack that is not full (R48, R161). -/
theorem exec_io_hPush {id v : Byte} {s : State} (hio : hostIO id s = (.ok, hPush v s)) (he : s.error = .ok)
    (hroom : s.depth < 0xFFFF) :
    exec (.io id) s = .next { s with sp := s.sp - 1, mem := s.mem.write (s.sp.toNat - 1) v } := by
  rw [hPush_next he hroom] at hio
  exact exec_io_ok hio he

theorem hostGetMouseB_ok {s : State} (he : s.error = .ok) (hroom : s.depth < 0xFFFF) :
    hostGetMouseB s = (.ok, mapHost { s with sp := s.sp - 1, mem := s.mem.write (s.sp.toNat - 1) s.host.mouseMask }
      fun h => { h with mouseEvent := false }) := by
  rw [hostGetMouseB, hPush_next he hroom]
  rfl

/-- Settles O32: each is one push by the host, after which `GET_MOUSE_B` alone clears its flag. -/
theorem pollAndMouseButtonPushes : Obligations.PollAndMouseButtonPushes := fun s he hroom =>
  ⟨exec_io_hPush (v := truthByte s.host.keyAvailable) rfl he hroom,
    exec_io_hPush (v := truthByte s.host.mouseEvent) rfl he hroom,
    exec_io_ok (hostGetMouseB_ok he hroom) he⟩

end Sys2Proof.Machine
end

section
/-! SUPPORT. Runs of the same instruction, host operation or step from two related states (relations that the named updates of the
state keep), and the statements about what every step keeps or cannot tell apart. -/

namespace Sys2Proof.Machine

/-! ### Relations that the updates of the state keep -/

/-- The values the error slot takes when an instruction other than `IO` stops the block. -/
def execErrors : List ErrorSlot := [.stackOverflow, .stackUnderflow, .divisionByZero, .halt]

/-- `R` relates states with the same `M`, `PC` and `SP`, and the updates that an instruction other than `IO` is made of
keep it. -/
structure BlockCongruence (R : State → State → Prop) : Prop where
  mem : ∀ {s t}, R s t → s.mem = t.mem
  pc : ∀ {s t}, R s t → s.pc = t.pc
  sp : ∀ {s t}, R s t → s.sp = t.sp
  stopped : ∀ {s t}, R s t → ∀ e ∈ execErrors, R (raise e s) (raise e t)
  withPc : ∀ {s t}, R s t → ∀ n ≤ Config.memorySize, R (s.withPc n) (t.withPc n)
  withSp : ∀ {s t}, R s t → ∀ a, R (s.withSp a) (t.withSp a)
  withByte : ∀ {s t}, R s t → ∀ a v, R (s.withByte a v) (t.withByte a v)

/-- Two host contexts with the same input (R36): all that the block can observe of them. -/
def SameInput (h k : HostContext) : Prop :=
  h.key = k.key ∧ h.keyAvailable = k.keyAvailable ∧ h.waiting = k.waiting ∧ h.mouseX = k.mouseX ∧ h.mouseY = k.mouseY ∧
  h.mouseMask = k.mouseMask ∧ h.mouseEvent = k.mouseEvent

/-- The same for `IO`: the input and the error slot agree, and what the host's operations do beyond their port requests keeps
the relation. -/
structure IoCongruence (R : State → State → Prop) : Prop extends BlockCongruence R where
  error : ∀ {s t}, R s t → s.error = t.error
  input : ∀ {s t}, R s t → SameInput s.host t.host
  raised : ∀ {s t}, R s t → ∀ e, e ≠ .ok → R (raise e s) (raise e t)
  rewound : ∀ {s t}, R s t → R (hRewind s) (hRewind t)
  emitted : ∀ {s t}, R s t → ∀ bytes, R (emit bytes s) (emit bytes t)
  drawn : ∀ {s t}, R s t → ∀ pixels, R (draw pixels s) (draw pixels t)
  refreshed : ∀ {s t}, R s t → R (hostRefresh s).2 (hostRefresh t).2
  keyTaken : ∀ {s t}, R s t →
    R (s.withHost { s.host with keyAvailable := false }) (t.withHost { t.host with keyAvailable := false })
  waitSet : ∀ {s t}, R s t → ∀ b,
    R (s.withHost { s.host with waiting := b }) (t.withHost { t.host with waiting := b })
  mouseTaken : ∀ {s t}, R s t →
    R (s.withHost { s.host with mouseEvent := false }) (t.withHost { t.host with mouseEvent := false })

/-- The same for the step: the two blocks run or do not, and the two pumps answer alike. -/
structure StepCongruence (R : State → State → Prop) : Prop extends IoCongruence R where
  running : ∀ {s t}, R s t → s.running = t.running
  schedule : ∀ {s t}, R s t → s.schedule = t.schedule
  pumped : ∀ {s t}, R s t → R (pumped s) (pumped t)
  shutDown : ∀ {s t}, R s t → R { s with running := false } { t with running := false }

/-- Both results are next states, and these are related. -/
def ResultsRelated (R : State → State → Prop) (r r' : Result) : Prop := ∃ t t', r = .next t ∧ r' = .next t' ∧ R t t'

/-! ### The primitives and the instructions but `IO` -/

section Block
variable {R : State → State → Prop} {s t : State}

theorem related_next (h : R s t) : ResultsRelated R (.next s) (.next t) := ⟨s, t, rfl, rfl, h⟩

variable (hR : BlockCongruence R)
include hR

theorem raise_related {e : ErrorSlot} (h : R s t) (he : e ∈ execErrors := by decide) :
    ResultsRelated R (.next (raise e s)) (.next (raise e t)) := related_next (hR.stopped h e he)

theorem pop_related {rest : Byte → State → Result} (h : R s t)
    (hrest : ∀ v u u', R u u' → ResultsRelated R (rest v u) (rest v u')) :
    ResultsRelated R (pop s rest) (pop t rest) := by
  by_cases hempty : s.sp = 0xFFFF#16
  · rw [pop_empty hempty, pop_empty (hR.sp h ▸ hempty)]
    exact raise_related hR h
  · rw [pop_ok hempty, pop_ok (hR.sp h ▸ hempty), State.byteAt, State.byteAt, ← hR.mem h, State.popped, State.popped,
      ← hR.sp h]
    exact hrest _ _ _ (hR.withSp h _)

theorem pushThen_related (v : Byte) {rest : State → Result} (h : R s t)
    (hrest : ∀ u u', R u u' → ResultsRelated R (rest u) (rest u')) :
    ResultsRelated R (pushThen v s rest) (pushThen v t rest) := by
  by_cases hfull : s.sp = 0x0000#16
  · rw [pushThen_full hfull, pushThen_full (hR.sp h ▸ hfull)]
    exact raise_related hR h
  · rw [pushThen_ok hfull, pushThen_ok (hR.sp h ▸ hfull), State.pushed, State.pushed, ← hR.sp h]
    exact hrest _ _ (hR.withByte (hR.withSp h _) _ _)

theorem push_related (v : Byte) (h : R s t) : ResultsRelated R (push v s) (push v t) :=
  pushThen_related hR v h fun _ _ => related_next

theorem popTwo_related {rest : Byte → Byte → State → Result} (h : R s t)
    (hrest : ∀ a b u u', R u u' → ResultsRelated R (rest a b u) (rest a b u')) :
    ResultsRelated R (popTwo s rest) (popTwo t rest) :=
  pop_related hR h fun b _ _ hu => pop_related hR hu fun a => hrest a b

theorem popAddr_related {rest : Addr → State → Result} (h : R s t)
    (hrest : ∀ addr u u', R u u' → ResultsRelated R (rest addr u) (rest addr u')) :
    ResultsRelated R (popAddr s rest) (popAddr t rest) := by
  rw [popAddr_eq_popTwo, popAddr_eq_popTwo]
  exact popTwo_related hR h fun _ _ => hrest _

theorem binary_related (f : Byte → Byte → Byte) (h : R s t) : ResultsRelated R (binary f s) (binary f t) :=
  popTwo_related hR h fun _ _ _ _ => push_related hR _

theorem unary_related (f : Byte → Byte) (h : R s t) : ResultsRelated R (unary f s) (unary f t) :=
  pop_related hR h fun _ _ _ => push_related hR _

theorem divide_related (f : Byte → Byte → Byte) (h : R s t) : ResultsRelated R (divide f s) (divide f t) := by
  refine popTwo_related hR h fun a b u u' hu => ?_
  split
  · exact raise_related hR hu
  · exact push_related hR _ hu

theorem compare_related (rel : Byte → Byte → Bool) (h : R s t) : ResultsRelated R (compare rel s) (compare rel t) :=
  popTwo_related hR h fun _ _ _ _ => push_related hR _

/-- A read of the same address in both states, before a push. -/
theorem pushByteAt_related (addr : Addr) (h : R s t) :
    ResultsRelated R (push (s.byteAt addr) s) (push (t.byteAt addr) t) := by
  rw [State.byteAt, State.byteAt, hR.mem h]
  exact push_related hR _ h

theorem jump_related (addr : Addr) (h : R s t) :
    ResultsRelated R (.next (s.withPc addr.toNat)) (.next (t.withPc addr.toNat)) :=
  related_next (hR.withPc h _ (addr_toNat_lt addr).le)

theorem branch_related (p : Byte → Prop) [DecidablePred p] (addr : Addr) (h : R s t) :
    ResultsRelated R (pop s fun v u => .next (if p v then u.withPc addr.toNat else u))
      (pop t fun v u => .next (if p v then u.withPc addr.toNat else u)) := by
  refine pop_related hR h fun v u u' hu => ?_
  split
  · exact jump_related hR addr hu
  · exact related_next hu

theorem execDup_related (h : R s t) : ResultsRelated R (execDup s) (execDup t) := by
  unfold execDup
  rw [← hR.sp h]
  split
  · exact raise_related hR h
  · exact pushByteAt_related hR _ h

theorem execSwap_related (h : R s t) : ResultsRelated R (execSwap s) (execSwap t) :=
  popTwo_related hR h fun a b _ _ hu => pushThen_related hR b hu fun _ _ hw => push_related hR a hw

theorem execLoadInd_related (h : R s t) : ResultsRelated R (execLoadInd s) (execLoadInd t) :=
  popAddr_related hR h fun addr _ _ hu => pushByteAt_related hR addr hu

theorem execStoreInd_related (h : R s t) : ResultsRelated R (execStoreInd s) (execStoreInd t) :=
  popAddr_related hR h fun addr _ _ hu => pop_related hR hu fun v _ _ hw => related_next (hR.withByte hw addr v)

theorem execRet_related (h : R s t) : ResultsRelated R (execRet s) (execRet t) :=
  pop_related hR h fun _ _ _ hu => pop_related hR hu fun _ _ _ hw => jump_related hR _ hw

theorem execCall_related (addr : Addr) (h : R s t) : ResultsRelated R (execCall addr s) (execCall addr t) := by
  unfold execCall
  rw [← hR.pc h]
  refine pushThen_related hR _ h fun u u' hu => ?_
  rw [← hR.pc hu]
  exact pushThen_related hR _ hu fun _ _ => jump_related hR addr

/-- Every instruction but `IO` takes related states to related states. -/
theorem exec_related {i : Instr} (hi : ∀ id, i ≠ .io id) (h : R s t) : ResultsRelated R (exec i s) (exec i t) := by
  cases i with
  | nop => exact related_next h
  | halt => exact raise_related hR (e := .halt) h
  | push v => exact push_related hR v h
  | pop => exact pop_related hR h fun _ _ _ => related_next
  | dup => exact execDup_related hR h
  | swap => exact execSwap_related hR h
  | add | sub | mul | and | or | xor | shl | shr => exact binary_related hR _ h
  | div | mod => exact divide_related hR _ h
  | neg | not => exact unary_related hR _ h
  | eq | neq | gt | lt | gte | lte => exact compare_related hR _ h
  | load addr => exact pushByteAt_related hR addr h
  | store addr => exact pop_related hR h fun v _ _ hu => related_next (hR.withByte hu addr v)
  | loadInd => exact execLoadInd_related hR h
  | storeInd => exact execStoreInd_related hR h
  | jmp addr => exact jump_related hR addr h
  | jz addr => exact branch_related hR (· = 0#8) addr h
  | jnz addr => exact branch_related hR (· ≠ 0#8) addr h
  | call addr => exact execCall_related hR addr h
  | ret => exact execRet_related hR h
  | io id => exact absurd rfl (hi id)

end Block

/-! ### `IO` -/

/-- The state after five pops by the host and a drawing made of the five bytes: what `DRAW_LINE` and `FILL_RECT` have in
common. -/
def drawFive (pixels : Byte → Byte → Byte → Byte → Byte → List ((Nat × Nat) × Argb)) (s : State) : State :=
  let a := hPop s
  let b := hPop a.2
  let c := hPop b.2
  let d := hPop c.2
  let e := hPop d.2
  draw (pixels a.1 b.1 c.1 d.1 e.1) e.2

theorem hostDrawLine_eq_drawFive (s : State) : hostDrawLine s =
    (.ok, drawFive (fun color y2 x2 y1 x1 => (Config.linePixels x1 y1 x2 y2).map (·, grey color)) s) := by
  simp only [hostDrawLine, drawFive]

theorem hostFillRect_eq_drawFive (s : State) : hostFillRect s =
    (.ok, drawFive (fun color h w y x => (rectPixels x y w h).map (·, grey color)) s) := by
  simp only [hostFillRect, drawFive]

section Io
variable {R : State → State → Prop} {s t : State}

/-- Two outcomes of a transaction, or of a pop by the host: the same value, and related states. -/
def OutcomesRelated (R : State → State → Prop) {α : Type} (x y : α × State) : Prop := x.1 = y.1 ∧ R x.2 y.2

variable (hR : IoCongruence R)
include hR

theorem hPop_related (h : R s t) : OutcomesRelated R (hPop s) (hPop t) := by
  unfold hPop
  rw [← hR.error h, ← hR.sp h, State.byteAt, State.byteAt, ← hR.mem h]
  split
  · exact ⟨rfl, h⟩
  · split
    · exact ⟨rfl, hR.stopped h _ (by decide)⟩
    · rw [State.popped, State.popped, ← hR.sp h]
      exact ⟨rfl, hR.withSp h _⟩

theorem hPush_related {v w : Byte} (hv : v = w) (h : R s t) : R (hPush v s) (hPush w t) := by
  subst hv
  unfold hPush
  rw [← hR.error h, ← hR.sp h]
  split
  · exact h
  · split
    · exact hR.stopped h _ (by decide)
    · rw [State.pushed, State.pushed, ← hR.sp h]
      exact hR.withByte (hR.withSp h _) _ _

theorem hPushWord_related {m n : BitVec 16} (hm : m = n) (h : R s t) : R (hPushWord m s) (hPushWord n t) := by
  subst hm
  exact hPush_related hR rfl (hPush_related hR rfl h)

theorem hostPrintChar_related (h : R s t) : R (hostPrintChar s).2 (hostPrintChar t).2 := by
  obtain ⟨hv, hu⟩ := hPop_related hR h
  simp only [hostPrintChar, hv]
  exact hR.emitted hu _

theorem hostReadChar_related (h : R s t) : OutcomesRelated R (hostReadChar s) (hostReadChar t) := by
  obtain ⟨hkey, havail, -⟩ := hR.input h
  unfold hostReadChar
  rw [← havail]
  split
  · exact ⟨rfl, hR.waitSet (hR.keyTaken (hPush_related hR hkey h)) false⟩
  · exact ⟨rfl, hR.rewound (hR.waitSet h true)⟩

theorem hostDrawPixel_related (h : R s t) : R (hostDrawPixel s).2 (hostDrawPixel t).2 := by
  obtain ⟨hcolor, h1⟩ := hPop_related hR h
  obtain ⟨hy, h2⟩ := hPop_related hR h1
  obtain ⟨hx, h3⟩ := hPop_related hR h2
  simp only [hostDrawPixel, hcolor, hy, hx]
  exact hR.drawn h3 _

theorem drawFive_related (pixels : Byte → Byte → Byte → Byte → Byte → List ((Nat × Nat) × Argb)) (h : R s t) :
    R (drawFive pixels s) (drawFive pixels t) := by
  obtain ⟨ha, h1⟩ := hPop_related hR h
  obtain ⟨hb, h2⟩ := hPop_related hR h1
  obtain ⟨hc, h3⟩ := hPop_related hR h2
  obtain ⟨hd, h4⟩ := hPop_related hR h3
  obtain ⟨he, h5⟩ := hPop_related hR h4
  simp only [drawFive, ha, hb, hc, hd, he]
  exact hR.drawn h5 _

/-- Every operation of the host answers related states with the same status and related states. -/
theorem hostIO_related (id : Byte) (h : R s t) : OutcomesRelated R (hostIO id s) (hostIO id t) := by
  obtain ⟨hkey, havail, -, hx, hy, hmask, hevent⟩ := hR.input h
  unfold hostIO
  split
  -- in the order of the operation table (R166): EXIT, PRINT_CHAR, READ_CHAR, DRAW_PIXEL, DRAW_LINE, FILL_RECT, REFRESH,
  -- POLL_KEY, GET_KEY, POLL_MOUSE, GET_MOUSE_X, GET_MOUSE_Y, GET_MOUSE_B, undefined
  case h_1 | h_14 => exact ⟨rfl, h⟩
  case h_2 => exact ⟨rfl, hostPrintChar_related hR h⟩
  case h_3 => exact hostReadChar_related hR h
  case h_4 => exact ⟨rfl, hostDrawPixel_related hR h⟩
  case h_5 => simp only [OutcomesRelated, hostDrawLine_eq_drawFive, drawFive_related hR _ h, and_self]
  case h_6 => simp only [OutcomesRelated, hostFillRect_eq_drawFive, drawFive_related hR _ h, and_self]
  case h_7 => exact ⟨rfl, hR.refreshed h⟩
  case h_8 => exact ⟨rfl, hPush_related hR (congrArg truthByte havail) h⟩
  case h_9 => exact ⟨rfl, hR.keyTaken (s := hPush _ s) (t := hPush _ t) (hPush_related hR hkey h)⟩
  case h_10 => exact ⟨rfl, hPush_related hR (congrArg truthByte hevent) h⟩
  case h_11 => exact ⟨rfl, hPushWord_related hR hx h⟩
  case h_12 => exact ⟨rfl, hPushWord_related hR hy h⟩
  case h_13 => exact ⟨rfl, hR.mouseTaken (s := hPush _ s) (t := hPush _ t) (hPush_related hR hmask h)⟩

theorem ioResult_related (id : Byte) {x y : Transaction} (h : OutcomesRelated R x y) :
    ResultsRelated R (ioResult id x) (ioResult id y) := by
  obtain ⟨hstatus, h⟩ := h
  unfold ioResult
  rw [← hstatus, ← hR.error h]
  split
  · exact related_next h
  · split
    · exact related_next h
    · split
      · exact related_next (hR.raised h .halt nofun)
      · exact related_next (hR.raised h .hostIo nofun)

/-- Every instruction takes related states to related states. -/
theorem exec_related_io (i : Instr) (h : R s t) : ResultsRelated R (exec i s) (exec i t) := by
  by_cases hi : ∃ id, i = .io id
  · obtain ⟨id, rfl⟩ := hi
    exact ioResult_related hR id (hostIO_related hR id h)
  · exact exec_related hR.toBlockCongruence (not_exists.1 hi) h

end Io

/-! ### The fetch and the step -/

section Step
variable {R : State → State → Prop} {s t : State} (hR : StepCongruence R)
include hR

theorem fetchByte_related {rest : Byte → State → Result} (h : R s t)
    (hrest : ∀ v u u', R u u' → ResultsRelated R (rest v u) (rest v u')) :
    ResultsRelated R (fetchByte s rest) (fetchByte t rest) := by
  unfold fetchByte
  rw [← hR.pc h, ← hR.mem h]
  split
  · exact related_next (hR.raised h _ nofun)
  · exact hrest _ _ _ (hR.withPc h _ (by simp only [Config.memorySize]; omega))

theorem peekImm16_related {rest : Addr → State → Result} (h : R s t)
    (hrest : s.pc + 1 ≤ 0xFFFF → ∀ a, ResultsRelated R (rest a s) (rest a t)) :
    ResultsRelated R (peekImm16 s rest) (peekImm16 t rest) := by
  unfold peekImm16
  rw [← hR.pc h, ← hR.mem h]
  split
  · exact related_next (hR.raised h _ nofun)
  · exact hrest (by omega) _

theorem operandThen_related (f : OpFormat) (h : R s t) : ResultsRelated R (operandThen f s exec) (operandThen f t exec) := by
  cases f with
  | plain i => exact exec_related_io hR.toIoCongruence i h
  | imm8 mk => exact fetchByte_related hR h fun v _ _ => exec_related_io hR.toIoCongruence (mk v)
  | addr16 mk =>
    unfold operandThen fetchImm16
    refine peekImm16_related hR h fun hpc a => exec_related_io hR.toIoCongruence (mk a) ?_
    rw [← hR.pc h]
    exact hR.withPc h _ (by simp only [Config.memorySize]; omega)
  | peek16 mk => exact peekImm16_related hR h fun _ a => exec_related_io hR.toIoCongruence (mk a) h
  | illegal => exact related_next (hR.raised h _ nofun)

theorem instructionStep_related (h : R s t) : ResultsRelated R (instructionStep s) (instructionStep t) :=
  fetchByte_related hR h fun op _ _ => operandThen_related hR (opcodeMap op)

theorem hostWait_eq_of_related (h : R s t) : hostWait s = hostWait t := by
  obtain ⟨-, havail, hwait, -⟩ := hR.input h
  rw [hostWait, havail, hwait, hostWait]

/-- A step takes related states to related states. -/
theorem step_related (h : R s t) : ResultsRelated R (step s) (step t) := by
  have hanswer : pumpAnswer s = pumpAnswer t := congrArg (List.headD · quietAnswer) (hR.schedule h)
  have hpumped := hR.pumped h
  unfold step iteration
  rw [← hR.running h, ← hanswer, ← hostWait_eq_of_related hR hpumped]
  split
  · split
    · exact related_next (hR.shutDown hpumped)
    · split
      · exact related_next hpumped
      · exact instructionStep_related hR hpumped
  · exact related_next h

end Step

/-! ### Every step and every instruction has a next state -/

/-- Equality is the least of the relations that every update keeps. -/
theorem stepCongruence_eq : StepCongruence Eq where
  mem h := h ▸ rfl
  pc h := h ▸ rfl
  sp h := h ▸ rfl
  stopped h _ _ := h ▸ rfl
  withPc h _ _ := h ▸ rfl
  withSp h _ := h ▸ rfl
  withByte h _ _ := h ▸ rfl
  error h := h ▸ rfl
  input h := h ▸ ⟨rfl, rfl, rfl, rfl, rfl, rfl, rfl⟩
  raised h _ _ := h ▸ rfl
  rewound h := h ▸ rfl
  emitted h _ := h ▸ rfl
  drawn h _ := h ▸ rfl
  refreshed h := h ▸ rfl
  keyTaken h := h ▸ rfl
  waitSet h _ := h ▸ rfl
  mouseTaken h := h ▸ rfl
  running h := h ▸ rfl
  schedule h := h ▸ rfl
  pumped h := h ▸ rfl
  shutDown h := h ▸ rfl

/-- Settles O53: the equal states `s` and `s` have related results, so each has a next state. -/
theorem everyStepHasANextState : Obligations.EveryStepHasANextState := by
  constructor
  · intro s
    obtain ⟨t, -, ht, -, -⟩ := step_related stepCongruence_eq (Eq.refl s)
    exact ⟨t, ht⟩
  · intro i s
    obtain ⟨t, -, ht, -, -⟩ := exec_related_io stepCongruence_eq.toIoCongruence i (Eq.refl s)
    exact ⟨t, ht⟩

/-! ### Properties of one state that the updates keep -/

/-- A property of one state as a relation: a state is related to itself if it has the property. -/
def Diagonal (P : State → Prop) (s t : State) : Prop := s = t ∧ P s

theorem exec_keeps {P : State → Prop} (hP : BlockCongruence (Diagonal P)) {i : Instr} {s t : State} (hi : ∀ id, i ≠ .io id)
    (hs : P s) (h : exec i s = .next t) : P t := by
  obtain ⟨u, -, hu, -, -, hPu⟩ := exec_related hP hi ⟨rfl, hs⟩
  cases hu.symm.trans h
  exact hPu

theorem step_keeps {P : State → Prop} (hP : StepCongruence (Diagonal P)) {s t : State} (hs : P s) (h : step s = .next t) :
    P t := by
  obtain ⟨u, -, hu, -, -, hPu⟩ := step_related hP ⟨rfl, hs⟩
  cases hu.symm.trans h
  exact hPu

/-! ### The invariant -/

theorem hRewind_inv {s : State} (h : s.Inv) : (hRewind s).Inv := withPc_inv h ((Nat.sub_le _ _).trans h.pcInRange)

theorem drawFree_inv {s : State} (h : s.Inv) : s.drawFree.Inv where
  memWf := h.memWf
  pcInRange := h.pcInRange
  bpReserved := h.bpReserved
  errorStops := h.errorStops
  framebufferWf := h.framebufferWf
  displayWf := h.displayWf

theorem emit_inv {s : State} (bytes : List Byte) (h : s.Inv) : (emit bytes s).Inv := by
  unfold emit
  split
  · exact drawFree_inv (withHost_inv h h.framebufferWf h.displayWf)
  · exact withHost_inv h h.framebufferWf h.displayWf

theorem draw_inv {s : State} (pixels : List ((Nat × Nat) × Argb)) (h : s.Inv) : (draw pixels s).Inv := by
  unfold draw
  split
  · exact drawFree_inv (withHost_inv h (fbPaint_wf _ h.framebufferWf) h.displayWf)
  · exact withHost_inv h (fbPaint_wf _ h.framebufferWf) h.displayWf

theorem hostRefresh_inv {s : State} (h : s.Inv) : (hostRefresh s).2.Inv :=
  withHost_inv h h.framebufferWf (by rintro fb ⟨⟩; exact h.framebufferWf)

theorem pumped_inv {s : State} (h : s.Inv) : (pumped s).Inv := by
  obtain ⟨hfb, hrefreshed, -⟩ := latchEvents_outputs (pumpAnswer s).events s.host
  have hframebuffer : (pumped s).host.framebuffer.wf := by rw [pumped_host, hfb]; exact h.framebufferWf
  have hdisplay : ∀ fb, (pumped s).host.refreshed = some fb → fb.wf := by rw [pumped_host, hrefreshed]; exact h.displayWf
  exact ⟨h.memWf, h.pcInRange, h.bpReserved, h.errorStops, hframebuffer, hdisplay⟩

theorem shutDown_inv {s : State} (h : s.Inv) : { s with running := false }.Inv where
  memWf := h.memWf
  pcInRange := h.pcInRange
  bpReserved := h.bpReserved
  errorStops _ := rfl
  framebufferWf := h.framebufferWf
  displayWf := h.displayWf

theorem stepCongruence_inv : StepCongruence (Diagonal State.Inv) where
  mem h := h.1 ▸ rfl
  pc h := h.1 ▸ rfl
  sp h := h.1 ▸ rfl
  stopped := by rintro s _ ⟨rfl, h⟩ e -; exact ⟨rfl, raise_inv s h⟩
  withPc := by rintro s _ ⟨rfl, h⟩ n hn; exact ⟨rfl, withPc_inv h hn⟩
  withSp := by rintro s _ ⟨rfl, h⟩ a; exact ⟨rfl, withSp_inv h⟩
  withByte := by rintro s _ ⟨rfl, h⟩ a v; exact ⟨rfl, withByte_inv h⟩
  error h := h.1 ▸ rfl
  input h := h.1 ▸ ⟨rfl, rfl, rfl, rfl, rfl, rfl, rfl⟩
  raised := by rintro s _ ⟨rfl, h⟩ e -; exact ⟨rfl, raise_inv s h⟩
  rewound := by rintro s _ ⟨rfl, h⟩; exact ⟨rfl, hRewind_inv h⟩
  emitted := by rintro s _ ⟨rfl, h⟩ bytes; exact ⟨rfl, emit_inv bytes h⟩
  drawn := by rintro s _ ⟨rfl, h⟩ pixels; exact ⟨rfl, draw_inv pixels h⟩
  refreshed := by rintro s _ ⟨rfl, h⟩; exact ⟨rfl, hostRefresh_inv h⟩
  keyTaken := by rintro s _ ⟨rfl, h⟩; exact ⟨rfl, withHost_inv h h.framebufferWf h.displayWf⟩
  waitSet := by rintro s _ ⟨rfl, h⟩ b; exact ⟨rfl, withHost_inv h h.framebufferWf h.displayWf⟩
  mouseTaken := by rintro s _ ⟨rfl, h⟩; exact ⟨rfl, withHost_inv h h.framebufferWf h.displayWf⟩
  running h := h.1 ▸ rfl
  schedule h := h.1 ▸ rfl
  pumped := by rintro s _ ⟨rfl, h⟩; exact ⟨rfl, pumped_inv h⟩
  shutDown := by rintro s _ ⟨rfl, h⟩; exact ⟨rfl, shutDown_inv h⟩

/-- Settles O50: each update of the state that a step is made of keeps the invariant. -/
theorem stepKeepsInvariant : Obligations.StepKeepsInvariant := fun _ _ => step_keeps stepCongruence_inv

/-! ### What the block cannot tell apart -/

theorem sameInput_latchEvents (es : List InputEvent) {h k : HostContext} (hin : SameInput h k) :
    SameInput (latchEvents h es) (latchEvents k es) := by
  induction es generalizing h k with
  | nil => exact hin
  | cons e rest ih =>
    obtain ⟨hkey, havail, hwait, hx, hy, hmask, hevent⟩ := hin
    cases e with
    | key b => exact ih ⟨rfl, rfl, hwait, hx, hy, hmask, hevent⟩
    | mouse x y mask => exact ih ⟨hkey, havail, hwait, rfl, rfl, rfl, rfl⟩

/-- `SameButOutputs` names the host's input, its whole schedule and the block, and nothing else. -/
theorem sameButOutputs_iff (s t : State) :
    SameButOutputs s t ↔ SameBlock s t ∧ s.schedule = t.schedule ∧ SameInput s.host t.host := Iff.rfl

theorem emit_sameButOutputs {s t : State} (bytes : List Byte) (h : SameButOutputs s t) :
    SameButOutputs (emit bytes s) (emit bytes t) := by
  have herr : s.error = t.error := by obtain ⟨⟨-, -, -, -, -, herr⟩, -⟩ := h; exact herr
  unfold emit
  rw [← herr]
  split <;> exact h

theorem draw_sameButOutputs {s t : State} (pixels : List ((Nat × Nat) × Argb)) (h : SameButOutputs s t) :
    SameButOutputs (draw pixels s) (draw pixels t) := by
  have herr : s.error = t.error := by obtain ⟨⟨-, -, -, -, -, herr⟩, -⟩ := h; exact herr
  unfold draw
  rw [← herr]
  split <;> exact h

theorem pumped_sameButOutputs {s t : State} (h : SameButOutputs s t) : SameButOutputs (pumped s) (pumped t) := by
  obtain ⟨hblock, hschedule, hin⟩ := (sameButOutputs_iff s t).1 h
  have hanswer : pumpAnswer s = pumpAnswer t := congrArg (List.headD · quietAnswer) hschedule
  refine (sameButOutputs_iff _ _).2 ⟨hblock, congrArg List.tail hschedule, ?_⟩
  rw [pumped_host, pumped_host, hanswer]
  exact sameInput_latchEvents _ hin

theorem stepCongruence_sameButOutputs : StepCongruence SameButOutputs where
  mem := fun ⟨⟨hmem, _, _, _, _, _⟩, _⟩ => hmem
  pc := fun ⟨⟨_, hpc, _, _, _, _⟩, _⟩ => hpc
  sp := fun ⟨⟨_, _, hsp, _, _, _⟩, _⟩ => hsp
  stopped := fun ⟨⟨hmem, hpc, hsp, hbp, _, _⟩, hrest⟩ _ _ => ⟨⟨hmem, hpc, hsp, hbp, rfl, rfl⟩, hrest⟩
  withPc := fun ⟨⟨hmem, _, hrestBlock⟩, hrest⟩ _ _ => ⟨⟨hmem, rfl, hrestBlock⟩, hrest⟩
  withSp := fun ⟨⟨hmem, hpc, _, hrestBlock⟩, hrest⟩ _ => ⟨⟨hmem, hpc, rfl, hrestBlock⟩, hrest⟩
  withByte := fun ⟨⟨hmem, hrestBlock⟩, hrest⟩ a v =>
    ⟨⟨congrArg (Memory.write · a.toNat v) hmem, hrestBlock⟩, hrest⟩
  error := fun ⟨⟨_, _, _, _, _, herr⟩, _⟩ => herr
  input := fun ⟨_, _, hin⟩ => hin
  raised := fun ⟨⟨hmem, hpc, hsp, hbp, _, _⟩, hrest⟩ _ _ => ⟨⟨hmem, hpc, hsp, hbp, rfl, rfl⟩, hrest⟩
  rewound := fun ⟨⟨hmem, hpc, hrestBlock⟩, hrest⟩ => ⟨⟨hmem, congrArg (· - 2) hpc, hrestBlock⟩, hrest⟩
  emitted h bytes := emit_sameButOutputs bytes h
  drawn h pixels := draw_sameButOutputs pixels h
  refreshed h := h
  keyTaken := fun ⟨hblock, hschedule, hkey, _, hrest⟩ => ⟨hblock, hschedule, hkey, rfl, hrest⟩
  waitSet := fun ⟨hblock, hschedule, hkey, havail, _, hrest⟩ _ => ⟨hblock, hschedule, hkey, havail, rfl, hrest⟩
  mouseTaken := fun ⟨hblock, hschedule, hkey, havail, hwait, hx, hy, hmask, _⟩ =>
    ⟨hblock, hschedule, hkey, havail, hwait, hx, hy, hmask, rfl⟩
  running := fun ⟨⟨_, _, _, _, hrun, _⟩, _⟩ => hrun
  schedule := fun ⟨_, hschedule, _⟩ => hschedule
  pumped := pumped_sameButOutputs
  shutDown := fun ⟨⟨hmem, hpc, hsp, hbp, _, herr⟩, hrest⟩ => ⟨⟨hmem, hpc, hsp, hbp, rfl, herr⟩, hrest⟩

/-- Settles O58: no update of the state that a step is made of carries an output, or the index of free values, into the block, the
input or the schedule. -/
theorem outputsNeverReachTheBlock : Obligations.OutputsNeverReachTheBlock := by
  intro s t s' t' h hs ht
  obtain ⟨u, u', hu, hu', hrelated⟩ := step_related stepCongruence_sameButOutputs h
  cases hu.symm.trans hs
  cases hu'.symm.trans ht
  exact hrelated

/-- `t` is `s` with `b` in `BP`. -/
def DiffersInBp (b : Addr) (s t : State) : Prop := t = { s with bp := b }

theorem stepCongruence_differsInBp (b : Addr) : StepCongruence (DiffersInBp b) where
  mem := by rintro s _ rfl; rfl
  pc := by rintro s _ rfl; rfl
  sp := by rintro s _ rfl; rfl
  stopped := by rintro s _ rfl e -; rfl
  withPc := by rintro s _ rfl n -; rfl
  withSp := by rintro s _ rfl a; rfl
  withByte := by rintro s _ rfl a v; rfl
  error := by rintro s _ rfl; rfl
  input := by rintro s _ rfl; exact ⟨rfl, rfl, rfl, rfl, rfl, rfl, rfl⟩
  raised := by rintro s _ rfl e -; rfl
  rewound := by rintro s _ rfl; rfl
  emitted := by rintro s _ rfl bytes; unfold emit; split <;> rfl
  drawn := by rintro s _ rfl pixels; unfold draw; split <;> rfl
  refreshed := by rintro s _ rfl; rfl
  keyTaken := by rintro s _ rfl; rfl
  waitSet := by rintro s _ rfl v; rfl
  mouseTaken := by rintro s _ rfl; rfl
  running := by rintro s _ rfl; rfl
  schedule := by rintro s _ rfl; rfl
  pumped := by rintro s _ rfl; rfl
  shutDown := by rintro s _ rfl; rfl

/-- Settles O54: the updates that a step is made of neither read nor write `BP`; with the value it has already, the second part
gives the first. -/
theorem bpNeitherReadNorWritten : Obligations.BpNeitherReadNorWritten := by
  have hstep : ∀ (s t : State) (b : Addr), step s = .next t → step { s with bp := b } = .next { t with bp := b } := by
    intro s t b h
    obtain ⟨u, u', hu, hu', hrelated⟩ := step_related (stepCongruence_differsInBp b) (s := s) rfl
    cases hu.symm.trans h
    cases hrelated
    exact hu'
  intro s t b h
  have hkept : t = { t with bp := s.bp } := Host.Outcome.next.inj (h.symm.trans (hstep s t s.bp h))
  exact ⟨by rw [hkept], hstep s t b h⟩

end Sys2Proof.Machine
end

section
/-! SUPPORT. The decoder read backward, and what a fetch gives in each case (R58, R71 to R75): the statements about decoding and
the fetch, and about a placed instruction word. -/

namespace Sys2Proof

/-! ### The bytes an instruction is decoded from -/

/-- The instructions that a format builds for the opcode `op` are encoded as `op` and the operand the format names. -/
def OpFormat.EncodedBy (op : Byte) : OpFormat → Prop
  | .plain i => encode i = [op]
  | .imm8 mk => (fun v => encode (mk v)) = fun v => [op, v]
  | .addr16 mk => (fun addr => encode (mk addr)) = fun addr => [op, lowByte addr.toNat, highByte addr.toNat]
  | .peek16 mk => (fun addr => encode (mk addr)) = fun addr => [op, lowByte addr.toNat, highByte addr.toNat]
  | .illegal => True

/-- The opcode map and the encoder agree, row by row (R76). -/
theorem opcodeMap_encodedBy (op : Byte) : (opcodeMap op).EncodedBy op := by
  by_cases hop : 0x22 ≤ op.toNat
  · rw [(opcodeMap_eq_illegal_iff op).2 hop]; trivial
  · obtain ⟨n, hn, rfl⟩ : ∃ n < 0x22, op = BitVec.ofNat 8 n := ⟨op.toNat, by omega, by simp⟩
    interval_cases n <;> rfl

theorem eq_of_decodeByteOperand {op : Byte} {mk : Byte → Instr} {bs rest : List Byte} {i : Instr}
    (hmk : (fun v => encode (mk v)) = fun v => [op, v]) (h : decodeByteOperand mk bs = .ok i rest) :
    op :: bs = encode i ++ rest := by
  cases bs with
  | nil => cases h
  | cons v bs =>
    cases h
    rw [congrFun hmk v]; rfl

theorem eq_of_decodeAddrOperand {op : Byte} {mk : Addr → Instr} {bs rest : List Byte} {i : Instr}
    (hmk : (fun addr => encode (mk addr)) = fun addr => [op, lowByte addr.toNat, highByte addr.toNat])
    (h : decodeAddrOperand mk bs = .ok i rest) : op :: bs = encode i ++ rest := by
  match bs, h with
  | lo :: hi :: bs, h =>
    cases h
    rw [congrFun hmk, lowByte_addrOf, highByte_addrOf]; rfl

/-- What decodes to an instruction is its encoding and the bytes left (R71, R79). -/
theorem eq_encode_append_of_decode {bs rest : List Byte} {i : Instr} (h : decode bs = .ok i rest) : bs = encode i ++ rest := by
  cases bs with
  | nil => cases h
  | cons op bs =>
    have hencoded := opcodeMap_encodedBy op
    rw [decode] at h
    cases hf : opcodeMap op with
    | plain j =>
      rw [hf] at h hencoded
      cases h
      rw [show encode _ = [op] from hencoded]; rfl
    | imm8 mk => rw [hf] at h hencoded; exact eq_of_decodeByteOperand hencoded h
    | addr16 mk => rw [hf] at h hencoded; exact eq_of_decodeAddrOperand hencoded h
    | peek16 mk => rw [hf] at h hencoded; exact eq_of_decodeAddrOperand hencoded h
    | illegal => rw [hf] at h; cases h

/-- Settles O2: forward the decoder reads the encoding's operand back, backward the opcode map names the encoding. -/
theorem decodeEncodeAgree : Obligations.DecodeEncodeAgree :=
  ⟨fun i rest _ => decode_encode_append i rest, fun _ _ _ => eq_encode_append_of_decode⟩

end Sys2Proof

namespace Sys2Proof.Machine

open Sys2Proof.Spec

/-! ### The fetch of the bytes at `PC` -/

/-- Settles O43: bytes that decode to `i` begin with the encoding of `i`, which is fetched as every encoding is. -/
theorem stepRunsTheDecodedInstruction : Obligations.StepRunsTheDecodedInstruction :=
  fun s i rest hfetches h => fetchedWith_fetchAdvance i s rest hfetches (eq_encode_append_of_decode h)

/-- A fetch sees as many bytes as it asks for, up to the top of memory (R58). -/
theorem bytesFrom_length (m : Memory) (a n : Nat) : (m.bytesFrom a n).length = min n (65536 - a) := by
  induction n generalizing a with
  | zero => simp [Memory.bytesFrom]
  | succ n ih =>
    unfold Memory.bytesFrom
    simp only [Config.memorySize]
    split
    · rw [List.length_cons, ih]; omega
    · simp only [List.length_nil]; omega

/-- The bytes are too few for an operand only where its fetch is one that can run past the top of memory. -/
theorem decode_truncated {bs : List Byte} (h : decode bs = .truncated) :
    ∃ op rest len, bs = op :: rest ∧ bs.length < len ∧ len ≤ 3 ∧ OperandFetchFaults op len := by
  cases bs with
  | nil => cases h
  | cons op bs =>
    have haddr {mk : Addr → Instr} (h : decodeAddrOperand mk bs = .truncated) : (op :: bs).length < 3 := by
      match bs with
      | [] | [_] => simp
      | _ :: _ :: _ => cases h
    rw [decode] at h
    cases hf : opcodeMap op with
    | plain j => rw [hf] at h; cases h
    | imm8 mk =>
      rw [hf] at h
      cases bs with
      | nil => exact ⟨op, [], 2, rfl, by simp, by omega, operandFetchFaults_imm8 hf⟩
      | cons v bs => cases h
    | addr16 mk => rw [hf] at h; exact ⟨op, bs, 3, rfl, haddr h, le_rfl, operandFetchFaults_addr16 hf⟩
    | peek16 mk => rw [hf] at h; exact ⟨op, bs, 3, rfl, haddr h, le_rfl, operandFetchFaults_peek16 hf⟩
    | illegal => rw [hf] at h; cases h

/-- Three bytes are enough for every legal opcode. -/
theorem decode_three {op : Byte} (hop : op.toNat ≤ 0x21) (v w : Byte) : ∃ i rest, decode [op, v, w] = .ok i rest := by
  rw [decode]
  cases hf : opcodeMap op with
  | plain i => exact ⟨i, [v, w], rfl⟩
  | imm8 mk => exact ⟨mk v, [w], rfl⟩
  | addr16 mk => exact ⟨mk (addrOf w v), [], rfl⟩
  | peek16 mk => exact ⟨mk (addrOf w v), [], rfl⟩
  | illegal =>
    have := (opcodeMap_eq_illegal_iff op).1 hf
    omega

theorem bytesFrom_three {m : Memory} {a : Nat} (ha : a < 65534) :
    m.bytesFrom a 3 = [m.read a, m.read (a + 1), m.read (a + 2)] := by
  simp only [Memory.bytesFrom, Config.memorySize]
  rw [if_pos (by omega), if_pos (by omega), if_pos (by omega)]

/-- Settles O44: the bytes a fetch can see are three, or end at the top of memory. -/
theorem fetchFaults : Obligations.FetchFaults := by
  refine fun s hfetches => ⟨fun hpc => ?_, fun htruncated => ?_, fun hpc hop => ?_⟩
  · obtain ⟨hrun, hpump, hwait⟩ := hfetches
    rw [step_fetches hrun hpump hwait, instructionStep, fetchThen, fetchByte_past (s := pumped s) hpc]
    rfl
  · obtain ⟨op, rest, len, hbytes, hshort, hlen, hfaults⟩ := decode_truncated htruncated
    obtain ⟨hpc, hop, -⟩ := bytesFrom_succ_eq_cons hbytes
    rw [bytesFrom_length] at hshort
    exact ⟨hfaults s hfetches (by omega) hop (by omega), by omega⟩
  · rw [bytesFrom_three hpc]
    exact decode_three hop _ _

/-! ### A placed instruction word -/

theorem read_writeBytes_of_lt (m : Memory) (bs : List Byte) {a b : Nat} (h : b < a) : (m.writeBytes a bs).read b = m.read b := by
  induction bs generalizing m a with
  | nil => rfl
  | cons v rest ih =>
    unfold Memory.writeBytes
    split
    · rw [ih _ (by omega), read_write_ne _ _ (by omega)]
    · rfl

/-- Bytes written inside memory are what a fetch there sees. -/
theorem bytesFrom_writeBytes (m : Memory) (bs : List Byte) {a : Nat} (h : a + bs.length ≤ Config.memorySize) :
    (m.writeBytes a bs).bytesFrom a bs.length = bs := by
  induction bs generalizing m a with
  | nil => rfl
  | cons v rest ih =>
    rw [List.length_cons] at h ⊢
    unfold Memory.bytesFrom Memory.writeBytes
    rw [if_pos (by omega), if_pos (by omega), read_writeBytes_of_lt _ _ (by omega), read_write_same, ih _ (by omega)]

theorem placePc_add_three_le (pc : Nat) : placePc pc + 3 ≤ Config.memorySize := by
  unfold placePc
  split
  · assumption
  · decide

theorem decode_tableBytes {nbits w : Nat} {i : Instr} (h : decodeTableWord nbits w = some i) :
    ∃ rest, decode (tableBytes nbits w) = .ok i rest := by
  unfold decodeTableWord at h
  split at h
  · next j rest hdecode => cases h; exact ⟨rest, hdecode⟩
  · cases h
  · cases h
  · cases h

theorem pumpAnswer_placed (s : State) (bs : List Byte) : pumpAnswer (s.placed bs) = quietAnswer := by
  show (quietNext s.schedule).headD quietAnswer = quietAnswer
  cases s.schedule <;> rfl

/-- The pump before a placed instruction is quiet and restores the schedule. -/
theorem pumped_placed (s : State) (bs : List Byte) : pumped (s.placed bs) = { s.placed bs with schedule := s.schedule } := by
  have hschedule : (quietNext s.schedule).tail = s.schedule := by cases s.schedule <;> rfl
  unfold pumped
  rw [pumpAnswer_placed]
  exact congrArg (fun l => { s.placed bs with schedule := l }) hschedule

theorem fetches_placed (s : State) (bs : List Byte) : Fetches (s.placed bs) := by
  refine ⟨rfl, ?_, ?_⟩
  · rw [pumpAnswer_placed]; rfl
  · rw [pumped_placed]; rfl

/-- Settles O49: the placed bytes are what the next fetch sees, and nothing keeps the next iteration from fetching. -/
theorem placedWordRunsNext : Obligations.PlacedWordRunsNext := by
  intro s nbits w i h
  obtain ⟨rest, hdecode⟩ := decode_tableBytes h
  have hbytes : (s.withFetchWord nbits w).mem.bytesFrom (s.withFetchWord nbits w).pc 3 = tableBytes nbits w :=
    bytesFrom_writeBytes s.mem (tableBytes nbits w) (placePc_add_three_le s.pc)
  have hstep := stepRunsTheDecodedInstruction (s.withFetchWord nbits w) i rest (fetches_placed s _) (hbytes.symm ▸ hdecode)
  rw [hstep, State.withFetchWord, pumped_placed]
  rfl

end Sys2Proof.Machine
end

section
/-! SUPPORT. Iterations that fetch nothing, runs of several steps, and `INIT` (R40, R44, R230): the statements about how an
iteration and a run end, and about initialisation. -/

namespace Sys2Proof.Machine

open Sys2Proof.Spec

/-! ### Iterations without a fetch (R40 steps 1 and 2) -/

theorem step_shutdown {s : State} (hrun : s.running = true) (hpump : (pumpAnswer s).shutdown = true) :
    step s = .next { pumped s with running := false } := by
  unfold step iteration
  rw [if_pos hrun, if_pos hpump]

theorem step_waiting {s : State} (hrun : s.running = true) (hpump : (pumpAnswer s).shutdown = false)
    (hwait : hostWait (pumped s) = true) : step s = .next (pumped s) := by
  unfold step iteration
  rw [if_pos hrun, if_neg (by simp [hpump]), if_pos hwait]

theorem sameBlock_pumped (s : State) : SameBlock (pumped s) s := ⟨rfl, rfl, rfl, rfl, rfl, rfl⟩

/-- Settles O45: a shutdown clears `running` in the state after the pump, a wait answers that state. -/
theorem shutdownAndWaitEndTheIteration : Obligations.ShutdownAndWaitEndTheIteration := by
  refine fun s hrun => ⟨fun hpump => ⟨_, step_shutdown hrun hpump, rfl, ?_⟩,
    fun hpump hwait => ⟨_, step_waiting hrun hpump hwait, ?_⟩⟩
  · exact ⟨rfl, rfl, rfl, rfl, hrun.symm, rfl⟩
  · exact sameBlock_pumped s

/-! ### Runs -/

theorem runsTo_zero (s : State) : runsTo s 0 s := rfl

theorem runsTo_succ {s u : State} (h : step s = .next u) (k : Nat) (t : State) : runsTo s (k + 1) t ↔ runsTo u k t := by
  unfold runsTo
  rw [Host.Core.run]
  simp only [h]

/-- A run leads to one state. -/
theorem runsTo_unique {s t u : State} {k : Nat} (ht : runsTo s k t) (hu : runsTo s k u) : t = u :=
  Host.Outcome.next.inj (ht.symm.trans hu)

/-- Settles O47: each step of a stopped block answers its own state. -/
theorem stoppedStateIsFinal : Obligations.StoppedStateIsFinal := by
  intro s k hstop
  induction k with
  | zero => exact runsTo_zero s
  | succ k ih => exact (runsTo_succ (step_stopped hstop) k s).2 ih

/-- Settles O56: with an error on record the block does not run, so no step changes anything. -/
theorem firstErrorStands : Obligations.FirstErrorStands := by
  intro s t k hinv herr hrun
  have hstop := hinv.errorStops herr
  cases runsTo_unique hrun (stoppedStateIsFinal s k hstop)
  exact ⟨rfl, hstop⟩

theorem State.Inv.error_of_running {s : State} (h : s.Inv) (hrun : s.running = true) : s.error = .ok := by
  by_contra herr
  simp [h.errorStops herr] at hrun

/-- Settles O57: a shutdown leaves the error slot at `OK`, and any other stop records an error, `HALT` or a fault. -/
theorem runEndsInOneOfThreeWays : Obligations.RunEndsInOneOfThreeWays := by
  intro s t hinv hrun hstep hstop
  rcases step_status_cases hstep with ⟨-, hpump, -, herr⟩ | ⟨hstopped | hpump, hkeeps⟩
  · exact .inr (.inl ⟨herr.trans (hinv.error_of_running hrun), hpump⟩)
  · simp [hrun] at hstopped
  · rcases hkeeps with ⟨hkept, -⟩ | ⟨-, herr⟩
    · simp [hstop, hrun] at hkept
    · by_cases hhalt : t.error = .halt
      · exact .inl ⟨hhalt, hpump⟩
      · exact .inr (.inr ⟨by simp [State.faulted, herr, hhalt], hpump⟩)

/-! ### Zeroed memory (R234) -/

theorem pumped_of_schedule_nil {s : State} (h : s.schedule = []) : pumped s = s := by
  obtain ⟨⟩ := s
  cases h
  rfl

theorem fetches_of_quiet {s : State} (hrun : s.running = true) (hquiet : s.schedule = []) (hwait : hostWait s = false) :
    Fetches s := by
  refine ⟨hrun, ?_, ?_⟩
  · rw [pumpAnswer, hquiet]; rfl
  · rwa [pumped_of_schedule_nil hquiet]

/-- A zero at `PC` is a `NOP` (R100). -/
theorem step_zero_byte {s : State} (hrun : s.running = true) (hquiet : s.schedule = []) (hwait : hostWait s = false)
    (hpc : s.pc < 65536) (hzero : s.mem.read s.pc = 0#8) : step s = .next (s.withPc (s.pc + 1)) := by
  obtain ⟨-, hpump, hwait'⟩ := fetches_of_quiet hrun hquiet hwait
  rw [step_fetches hrun hpump hwait', pumped_of_schedule_nil hquiet, instructionStep, fetchThen, fetchByte_ok (by omega), hzero]
  rfl

/-- A run over `n` zeros up to the top of memory, and the fetch past it. -/
theorem runsTo_over_zeros (n : Nat) {s : State} (hrun : s.running = true) (hquiet : s.schedule = []) (hwait : hostWait s = false)
    (hn : s.pc + n = 65536) (hzeros : ∀ a, s.pc ≤ a → a < 65536 → s.mem.read a = 0#8) :
    runsTo s (n + 1) (stopped { s with pc := 65536 } .invalidAddress) := by
  induction n generalizing s with
  | zero =>
    have hstep := (fetchFaults s (fetches_of_quiet hrun hquiet hwait)).1 hn.ge
    rw [runsTo_succ hstep, pumped_of_schedule_nil hquiet, ← hn]
    exact runsTo_zero _
  | succ n ih =>
    have hzero := hzeros s.pc le_rfl (by omega)
    rw [runsTo_succ (step_zero_byte hrun hquiet hwait (by omega) hzero)]
    refine ih (s := s.withPc (s.pc + 1)) hrun hquiet hwait ?_ fun a ha => hzeros a ?_
    · rw [withPc_pc]; omega
    · rw [withPc_pc] at ha; omega

theorem init_ok {image : List Byte} (s : State) (h : image.length ≤ Config.memorySize) : State.init image s =
    .next { s with mem := Memory.ofBytes 0 image, pc := 0, sp := 0xFFFF#16, bp := 0xFFFF#16, running := true, error := .ok } := by
  unfold State.init
  rw [if_neg (by omega)]

/-- Settles O48: each zero is one `NOP`, and the fetch after the last one is past the top of memory. -/
theorem zeroedMemoryRunsOff : Obligations.ZeroedMemoryRunsOff := by
  constructor
  · intro s hrun hquiet hwait hpc hzeros
    exact runsTo_over_zeros (65536 - s.pc) hrun hquiet hwait (by omega) hzeros
  · intro s t hquiet hwait hinit
    rw [init_ok s (Nat.zero_le _)] at hinit
    cases hinit
    exact runsTo_over_zeros 65536 rfl hquiet hwait (Nat.zero_add _) fun _ _ _ => rfl

/-! ### `INIT` -/

theorem read_cons (k : Nat) (v : Byte) (m : Memory) (a : Nat) : Memory.read ((k, v) :: m) a = if a = k then v else m.read a := by
  unfold Memory.read
  rw [assocFind]
  split <;> rfl

theorem read_ofBytes_of_lt (bs : List Byte) {a b : Nat} (h : b < a) : (Memory.ofBytes a bs).read b = 0#8 := by
  induction bs generalizing a with
  | nil => rfl
  | cons v rest ih =>
    unfold Memory.ofBytes
    split
    · exact ih (by omega)
    · rw [read_cons, if_neg (by omega), ih (by omega)]

/-- A loaded image reads back, with zeros above it (R230). -/
theorem read_ofBytes (bs : List Byte) (a k : Nat) : (Memory.ofBytes a bs).read (a + k) = bs.getD k 0#8 := by
  induction bs generalizing a k with
  | nil => rfl
  | cons v rest ih =>
    unfold Memory.ofBytes
    cases k with
    | zero =>
      split
      · next hv => rw [hv]; exact read_ofBytes_of_lt rest (by omega)
      · rw [read_cons, if_pos (Nat.add_zero a)]; rfl
    | succ k =>
      have haddr : a + (k + 1) = a + 1 + k := by omega
      rw [haddr, List.getD_cons_succ]
      split
      · exact ih _ _
      · rw [read_cons, if_neg (by omega), ih]

/-- Settles O42: `INIT` writes each field of the block, and the loaded image reads back. -/
theorem initLoadsImage : Obligations.InitLoadsImage := by
  refine ⟨rfl, fun image s => ⟨fun hfits => ⟨_, init_ok s hfits, fun a _ => ?_, ?_, rfl, rfl, rfl, rfl, rfl, rfl⟩,
    fun hlong => ?_⟩⟩
  · simpa using read_ofBytes image 0 a
  · exact ofBytes_wf (by simpa using hfits)
  · exact if_pos hlong

/-- Settles O52: the image loads in canonical form, and the pictures are those of before. -/
theorem initEstablishesInvariant : Obligations.InitEstablishesInvariant := by
  intro image s t hfb hdisplay hinit
  unfold State.init at hinit
  split at hinit
  · cases hinit
  · next hfits =>
    cases hinit
    exact ⟨ofBytes_wf (by omega), Nat.zero_le _, rfl, fun herr => absurd rfl herr, hfb, hdisplay⟩

/-- Settles O51: the reset state is what `INIT` makes of it with the empty image, and its host has written nothing. -/
theorem resetMeetsInvariant : Obligations.ResetMeetsInvariant :=
  initEstablishesInvariant [] State.reset State.reset ⟨List.Pairwise.nil, nofun⟩ nofun rfl

end Sys2Proof.Machine
end

section
/-! SUPPORT. The stack as a sequence of bytes after pops and pushes (R26 to R28), and the statements about the results of the
stack, store and call instructions. -/

namespace Sys2Proof.Machine

open Sys2Proof.Spec

/-! ### The stack after `k` pops -/

theorem depth_poppedTimes {s : State} {k : Nat} (h : k ≤ s.depth) : (s.poppedTimes k).depth = s.depth - k := by
  have hsp := poppedTimes_sp_toNat h
  have hdepth := depth_add_sp s
  rw [State.depth, hsp]
  omega

theorem stackByte_poppedTimes {s : State} {k : Nat} (h : k ≤ s.depth) (j : Nat) :
    stackByte (s.poppedTimes k) j = stackByte s (k + j) := by
  rw [stackByte, poppedTimes_sp_toNat h, Nat.add_assoc]
  rfl

theorem sp_poppedTimes_depth (s : State) : (s.poppedTimes s.depth).sp = 0xFFFF#16 :=
  sp_eq_empty (by rw [depth_poppedTimes le_rfl, Nat.sub_self])

/-! ### The stack after a push -/

/-- The state after a push on a stack that is not full, by addresses (R27). -/
def State.withTop (s : State) (v : Byte) : State := { s with sp := s.sp - 1, mem := s.mem.write (s.sp.toNat - 1) v }

section Push
variable {s : State} (h : s.depth < 0xFFFF)
include h

theorem pushed_eq_withTop (v : Byte) : s.pushed v = s.withTop v := by
  simp only [State.pushed, State.withByte, State.withSp, State.withTop, sp_pred_toNat h]

theorem pushThen_next (v : Byte) (rest : State → Result) : pushThen v s rest = rest (s.withTop v) := by
  rw [pushThen_ok (sp_ne_full h), pushed_eq_withTop h]

theorem depth_withTop (v : Byte) : (s.withTop v).depth = s.depth + 1 := by
  rw [← pushed_eq_withTop h, depth_pushed h]

theorem withTop_sp_toNat (v : Byte) : (s.withTop v).sp.toNat = s.sp.toNat - 1 := sp_pred_toNat h

theorem stackByte_withTop_zero (v : Byte) : stackByte (s.withTop v) 0 = v := by
  rw [stackByte, withTop_sp_toNat h, Nat.add_zero]
  exact read_write_same _ _ _

theorem stackByte_withTop_succ (v : Byte) (k : Nat) : stackByte (s.withTop v) (k + 1) = stackByte s k := by
  have hdepth := depth_add_sp s
  rw [stackByte, withTop_sp_toNat h, State.withTop, read_write_ne _ _ (by omega), stackByte]
  congr 1
  omega

/-- Two pushes, by addresses. -/
theorem withTop_withTop (v w : Byte) : (s.withTop v).withTop w =
    { s with sp := s.sp - 2, mem := (s.mem.write (s.sp.toNat - 1) v).write (s.sp.toNat - 2) w } := by
  have hsp : s.sp - 1 - 1 = s.sp - 2 := by bv_omega
  rw [State.withTop, withTop_sp_toNat h]
  simp only [State.withTop, hsp, Nat.sub_sub, Nat.reduceAdd]

end Push

/-- A push on a stack with room for one byte fills it: the byte is at address 0 (R29). -/
theorem withTop_of_one_left {s : State} (h : s.depth = 0xFFFE) (v : Byte) :
    s.withTop v = { s with sp := 0x0000#16, mem := s.mem.write 0 v } := by
  have hdepth := depth_add_sp s
  have hfull : s.sp - 1 = 0x0000#16 := sp_eq_full (s := s.withTop v) (by rw [depth_withTop (by omega), h])
  have hzero : s.sp.toNat - 1 = 0 := by omega
  rw [State.withTop, hfull, hzero]

/-! ### Pops and pushes in the instructions -/

theorem pop_poppedTimes {s : State} {k : Nat} (h : k < s.depth) (rest : Byte → State → Result) :
    pop (s.poppedTimes k) rest = rest (stackByte s k) (s.poppedTimes (k + 1)) := by
  have hdepth : 1 ≤ (s.poppedTimes k).depth := by rw [depth_poppedTimes h.le]; omega
  rw [pop_stackByte hdepth, stackByte_poppedTimes h.le, ← popped_poppedTimes]
  rfl

theorem popTwo_poppedTimes {s : State} (h : 2 ≤ s.depth) (rest : Byte → Byte → State → Result) :
    popTwo s rest = rest (stackByte s 1) (stackByte s 0) (s.poppedTimes 2) := popTwo_stackBytes h rest

theorem exec_pop (s : State) : exec .pop s = pop s fun _ u => .next u := rfl

/-- Settles O6: `NOP` is its own state, `POP` one pop whose byte is dropped. -/
theorem nopAndPopResult : Obligations.NopAndPopResult :=
  ⟨rfl, rfl, fun _ => rfl, fun s => ⟨fun hone => (exec_pop s).trans (pop_stackByte hone _),
    fun hzero => exec_underflow_of_exec_eq_pop (exec_pop s) hzero⟩⟩

theorem exec_dup (s : State) :
    exec .dup s = if s.sp = 0xFFFF#16 then .next (raise .stackUnderflow s) else push (stackByte s 0) s := rfl

theorem exec_swap (s : State) : exec .swap s = popTwo s fun a b u => pushThen b u fun w => push a w := rfl

/-- `SWAP` on two bytes: the pushes write where the pops have read (R104). -/
theorem exec_swap_ok {s : State} (h : 2 ≤ s.depth) : exec .swap s = .next { s with
    mem := (s.mem.write (s.sp.toNat + 1) (stackByte s 0)).write s.sp.toNat (stackByte s 1) } := by
  have hdepth := depth_add_sp s
  have hroom : (s.poppedTimes 2).depth < 0xFFFF := by rw [depth_poppedTimes h]; omega
  have hroom' : ((s.poppedTimes 2).withTop (stackByte s 0)).depth < 0xFFFF := by
    rw [depth_withTop hroom, depth_poppedTimes h]; omega
  have hsp : (s.poppedTimes 2).sp - 2 = s.sp := by simp only [State.poppedTimes, withSp_sp]; bv_omega
  rw [exec_swap, popTwo_poppedTimes h, pushThen_next hroom, push, pushThen_next hroom', withTop_withTop hroom,
    poppedTimes_sp_toNat h, hsp]
  rfl

/-- Settles O7: `DUP` tests for the empty stack and is then one push; `SWAP` is two pops and two pushes. -/
theorem dupAndSwapResult : Obligations.DupAndSwapResult := by
  refine ⟨rfl, rfl, fun s => ⟨fun hone hroom => ?_, fun hzero => ?_, fun hfull => ?_⟩, fun _ => exec_swap_ok,
    underflowOfTwo_of_exec_eq_popTwo exec_swap⟩
  · rw [exec_dup, if_neg (sp_ne_empty hone), push_next hroom]
  · rw [exec_dup, if_pos (sp_eq_empty hzero)]; rfl
  · rw [exec_dup, if_neg (sp_ne_empty (by omega)), push_full (sp_eq_full hfull)]; rfl

/-- Settles O16: each begins with two pops. -/
theorem aluUnderflowState : Obligations.AluUnderflowState := by
  have binary {i : Instr} (f : Byte → Byte → Byte) (hexec : ∀ s, exec i s = Machine.binary f s) : UnderflowOfTwo i :=
    underflowOfTwo_of_exec_eq_popTwo hexec
  have divide {i : Instr} (f : Byte → Byte → Byte) (hexec : ∀ s, exec i s = Machine.divide f s) : UnderflowOfTwo i :=
    underflowOfTwo_of_exec_eq_popTwo hexec
  simp only [Obligations.AluUnderflowState, List.forall_mem_cons]
  exact ⟨binary aluAdd fun _ => rfl, binary aluSub fun _ => rfl, binary aluMul fun _ => rfl, divide aluDiv fun _ => rfl,
    divide aluMod fun _ => rfl, binary aluAnd fun _ => rfl, binary aluOr fun _ => rfl, binary aluXor fun _ => rfl,
    binary aluShl fun _ => rfl, binary aluShr fun _ => rfl, nofun⟩

/-! ### `STORE_IND` and `STORE` -/

theorem exec_storeInd (s : State) :
    exec .storeInd s = popTwo s fun hi lo u => pop u fun v w => .next (w.withByte (addrOf hi lo) v) := rfl

/-- Settles O20: two pops give the address, a third the value; each pop that succeeded stands. -/
theorem storeIndWritesByte : Obligations.StoreIndWritesByte := by
  refine ⟨rfl, fun s => ⟨fun hthree => ?_, fun hone htwo => ?_, fun hzero => ?_⟩⟩
  · rw [exec_storeInd, popTwo_poppedTimes (by omega), pop_poppedTimes (by omega), State.withByte, addrOf_toNat]
    rfl
  · rw [exec_storeInd]
    obtain hdepth | hdepth : s.depth = 1 ∨ s.depth = 2 := by omega
    · exact popTwo_one hdepth _
    · have hempty : (s.poppedTimes 2).sp = 0xFFFF#16 := hdepth ▸ sp_poppedTimes_depth s
      rw [popTwo_poppedTimes hdepth.ge, pop_empty hempty, ← hempty]
      rfl
  · rw [exec_storeInd]
    exact popTwo_zero hzero _

/-- Settles O21: the store is the one write between the two fetches (`read_write`). -/
theorem storeSeenByNextFetch : Obligations.StoreSeenByNextFetch := by
  intro addr s t hone h k hk hpc
  rw [exec_store, pop_stackByte hone] at h
  cases h
  show ((s.mem.write addr.toNat (stackByte s 0)).bytesFrom s.pc 3)[k]? = _
  rw [bytesFrom_get _ 3 hk hpc]
  exact congrArg some (read_write s.mem addr.toNat (s.pc + k) (stackByte s 0))

/-! ### `CALL` and `RET` -/

theorem exec_call (addr : Addr) (s : State) : exec (.call addr) s =
    pushThen (lowByte s.pc) s fun u => pushThen (highByte u.pc) u fun w => .next (w.withPc addr.toNat) := rfl

theorem exec_call_ok {s : State} (addr : Addr) (h : s.depth ≤ 0xFFFD) :
    exec (.call addr) s = .next (((s.withTop (lowByte s.pc)).withTop (highByte s.pc)).withPc addr.toNat) := by
  have hroom : s.depth < 0xFFFF := by omega
  rw [exec_call, pushThen_next hroom, pushThen_next (by rw [depth_withTop hroom]; omega)]
  rfl

/-- Settles O23: two pushes, the second of which can overflow alone, and `PC` moves only after both. -/
theorem callPushesReturnAddress : Obligations.CallPushesReturnAddress := by
  refine ⟨operandFetchFaults_addr16 (mk := .call) rfl, fun addr => ⟨encode_eq_a16 rfl, fetchedWith_fetchAdvance (.call addr),
    fun s => ⟨fun htwo => ?_, fun hone => ?_, fun hfull => ?_⟩⟩⟩
  · rw [exec_call_ok addr htwo, withTop_withTop (by omega)]
    rfl
  · have hroom : s.depth < 0xFFFF := by omega
    have hfull : (s.withTop (lowByte s.pc)).sp = 0x0000#16 := sp_eq_full (by rw [depth_withTop hroom, hone])
    rw [exec_call, pushThen_next hroom, pushThen_full hfull, withTop_of_one_left hone]
    rfl
  · rw [exec_call, pushThen_full (sp_eq_full hfull)]
    rfl

/-- Settles O25: the two bytes at the `CALL`'s stack pointer are those of its return address, high byte on top. -/
theorem callRetMirror : Obligations.CallRetMirror := by
  intro addr s t u hroom hpc hcall hsp hhigh hlow
  rw [exec_call_ok addr hroom] at hcall
  cases hcall
  have hroom' : (s.withTop (lowByte s.pc)).depth < 0xFFFF := by rw [depth_withTop (by omega)]; omega
  have hhigh' : stackByte u 0 = highByte s.pc := hhigh.trans (stackByte_withTop_zero hroom' _)
  have hlow' : stackByte u 1 = lowByte s.pc := calc
    stackByte u 1
    _ = stackByte ((s.withTop (lowByte s.pc)).withTop (highByte s.pc)) 1 := hlow
    _ = stackByte (s.withTop (lowByte s.pc)) 0 := stackByte_withTop_succ hroom' _ 0
    _ = lowByte s.pc := stackByte_withTop_zero (by omega) _
  have hsp' : u.sp = s.sp - 1 - 1 := hsp
  have hdepth : 2 ≤ u.depth := by
    have : u.depth = ((s.withTop (lowByte s.pc)).withTop (highByte s.pc)).depth := by rw [State.depth, hsp']; rfl
    rw [this, depth_withTop hroom', depth_withTop (by omega)]
    omega
  have htarget : (highByte s.pc).toNat * 256 + (lowByte s.pc).toNat = s.pc % 65536 := by
    rw [highByte_toNat, lowByte_toNat]; omega
  have hback : u.sp + 2 = s.sp := by rw [hsp']; bv_omega
  rw [exec_ret_eq_popTwo, popTwo_stackBytes hdepth, addrOf_toNat, hhigh', hlow', htarget, hback]
  rfl

/-! ### The integer laws (R123) -/

theorem exec_twoToOne {i : Instr} {f : Nat → Nat → Nat} {s : State} (h : 2 ≤ s.depth) (hresult : TwoToOneResult i f s) :
    ∃ t, exec i s = .next t ∧ t.sp = s.sp + 1 ∧ t.error = s.error ∧
      stackByte t 0 = BitVec.ofNat 8 (f (stackByte s 1).toNat (stackByte s 0).toNat) := by
  refine ⟨_, hresult, rfl, rfl, ?_⟩
  rw [stackByte, sp_succ_toNat (by omega), Nat.add_zero]
  exact read_write_same _ _ _

theorem exec_unary {i : Instr} {f : Nat → Nat} {s : State} (h : 1 ≤ s.depth) (hrule : UnaryRule i f) :
    ∃ t, exec i s = .next t ∧ t.sp = s.sp ∧ t.error = s.error ∧
      stackByte t 0 = BitVec.ofNat 8 (f (stackByte s 0).toNat) :=
  ⟨_, (hrule s).1 h, rfl, rfl, read_write_same _ _ _⟩

theorem exec_swap_bytes {s : State} (h : 2 ≤ s.depth) :
    ∃ t, exec .swap s = .next t ∧ t.sp = s.sp ∧ t.error = s.error ∧
      stackByte t 0 = stackByte s 1 ∧ stackByte t 1 = stackByte s 0 := by
  refine ⟨_, exec_swap_ok h, rfl, rfl, read_write_same _ _ _, ?_⟩
  rw [stackByte, read_write_ne _ _ (by simp)]
  exact read_write_same _ _ _

theorem exec_push_ok {s : State} (h : s.depth < 0xFFFF) (v : Byte) : exec (.push v) s = .next (s.withTop v) :=
  pushThen_next h v _

theorem depth_eq_of_sp {s t : State} (h : t.sp = s.sp) : t.depth = s.depth := by rw [State.depth, h, State.depth]

/-- The results of `DIV` and `MOD` on the same bytes. -/
theorem div_mod_law {s : State} (h : 2 ≤ s.depth) (hb : stackByte s 0 ≠ 0#8) :
    ∃ q r : State, exec .div s = .next q ∧ exec .mod s = .next r ∧
      (stackByte q 0).toNat * (stackByte s 0).toNat + (stackByte r 0).toNat = (stackByte s 1).toNat ∧
      (stackByte r 0).toNat < (stackByte s 0).toNat := by
  obtain ⟨-, -, hdiv, hmod⟩ := divModResult
  obtain ⟨q, hq, -, -, hqtop⟩ := exec_twoToOne h ((hdiv s).1 h hb)
  obtain ⟨r, hr, -, -, hrtop⟩ := exec_twoToOne h ((hmod s).1 h hb)
  have hpos : 0 < (stackByte s 0).toNat := Nat.pos_of_ne_zero fun h0 => hb (BitVec.eq_of_toNat_eq h0)
  have hq' : (stackByte q 0).toNat = (stackByte s 1).toNat / (stackByte s 0).toNat := by
    rw [hqtop, BitVec.toNat_ofNat, Nat.mod_eq_of_lt ((Nat.div_le_self _ _).trans_lt (stackByte s 1).isLt)]
  have hr' : (stackByte r 0).toNat = (stackByte s 1).toNat % (stackByte s 0).toNat := by
    rw [hrtop, BitVec.toNat_ofNat, Nat.mod_eq_of_lt ((Nat.mod_le _ _).trans_lt (stackByte s 1).isLt)]
  refine ⟨q, r, hq, hr, ?_, ?_⟩
  · rw [hq', hr', Nat.div_add_mod']
  · rw [hr']; exact Nat.mod_lt _ hpos

/-- `PUSH 0`, `SWAP`, `SUB` takes the top byte from 0. -/
theorem execSeq_push_swap_sub {s : State} (hone : 1 ≤ s.depth) (hroom : s.depth < 0xFFFF) (herr : s.error = .ok) :
    ∃ u, execSeq [.push 0#8, .swap, .sub] s u ∧ u.sp = s.sp ∧
      stackByte u 0 = BitVec.ofNat 8 ((256 - (stackByte s 0).toNat) % 256) := by
  have htwo : 2 ≤ (s.withTop 0#8).depth := by rw [depth_withTop hroom]; omega
  obtain ⟨-, -, -, -, hsub, -⟩ := addSubMulResult
  obtain ⟨w, hswap, hwsp, hwerr, htop, hbelow⟩ := exec_swap_bytes htwo
  rw [stackByte_withTop_zero hroom] at hbelow
  rw [stackByte_withTop_succ hroom] at htop
  have hwtwo : 2 ≤ w.depth := by rw [depth_eq_of_sp hwsp]; exact htwo
  obtain ⟨u, hu, husp, huerr, hutop⟩ := exec_twoToOne hwtwo ((hsub w).1 hwtwo)
  refine ⟨u, ⟨_, exec_push_ok hroom 0#8, herr, w, hswap, hwerr.trans herr, u, hu, (huerr.trans hwerr).trans herr, rfl⟩,
    ?_, ?_⟩
  · rw [husp, hwsp, State.withTop]; bv_omega
  · rw [hutop, htop, hbelow]; simp

/-- `NOT`, `PUSH 1`, `ADD` adds one to the complement of the top byte. -/
theorem execSeq_not_push_add {s : State} (hone : 1 ≤ s.depth) (hroom : s.depth < 0xFFFF) (herr : s.error = .ok) :
    ∃ w, execSeq [.not, .push 1#8, .add] s w ∧ w.sp = s.sp ∧
      stackByte w 0 = BitVec.ofNat 8 ((256 - (stackByte s 0).toNat) % 256) := by
  obtain ⟨-, -, -, hnot⟩ := negNotResult
  obtain ⟨-, -, -, hadd, -, -⟩ := addSubMulResult
  obtain ⟨u, hu, husp, huerr, hutop⟩ := exec_unary hone hnot
  have hroom' : u.depth < 0xFFFF := by rw [depth_eq_of_sp husp]; exact hroom
  have htwo : 2 ≤ (u.withTop 1#8).depth := by rw [depth_withTop hroom', depth_eq_of_sp husp]; omega
  obtain ⟨w, hw, hwsp, hwerr, hwtop⟩ := exec_twoToOne htwo ((hadd _).1 htwo)
  rw [herr] at huerr
  refine ⟨w, ⟨u, hu, huerr, _, exec_push_ok hroom' 1#8, huerr, w, hw, hwerr.trans huerr, rfl⟩, ?_, ?_⟩
  · rw [hwsp, State.withTop, husp]; bv_omega
  · have hlt := (stackByte s 0).isLt
    have hcomplement : (255 - (stackByte s 0).toNat) % 2 ^ 8 = 255 - (stackByte s 0).toNat := Nat.mod_eq_of_lt (by omega)
    rw [hwtop, stackByte_withTop_zero hroom', stackByte_withTop_succ hroom', hutop, BitVec.toNat_ofNat, hcomplement,
      BitVec.toNat_ofNat]
    congr 2
    omega

/-- Settles O15: the rules of the instructions, run in sequence, and the law of the quotient and the remainder. -/
theorem integerLaws : Obligations.IntegerLaws := by
  refine ⟨fun s => div_mod_law, fun s hone hroom herr => ?_⟩
  obtain ⟨-, -, hneg, -⟩ := negNotResult
  obtain ⟨n, hn, hnsp, -, hntop⟩ := exec_unary hone hneg
  obtain ⟨u, hu, husp, hutop⟩ := execSeq_push_swap_sub hone hroom herr
  obtain ⟨w, hw, hwsp, hwtop⟩ := execSeq_not_push_add hone hroom herr
  exact ⟨n, u, w, hn, hu, hw, husp.trans hnsp.symm, hwsp.trans hnsp.symm, hutop.trans hntop.symm, hwtop.trans hntop.symm⟩

/-! ### The capacity of the stack (R29) -/

/-- `n` pushes of one byte, while there is room: they fill the `n` addresses below `SP`. -/
theorem execSeq_replicate_push (v : Byte) (n : Nat) {s : State} (herr : s.error = .ok) (hroom : s.depth + n ≤ 0xFFFF) :
    ∃ t, execSeq (List.replicate n (.push v)) s t ∧ t.depth = s.depth + n ∧
      ∀ a, t.mem.read a = if s.sp.toNat - n ≤ a ∧ a < s.sp.toNat then v else s.mem.read a := by
  induction n generalizing s with
  | zero => exact ⟨s, rfl, rfl, fun a => by rw [if_neg (by omega)]⟩
  | succ n ih =>
    have hdepth := depth_add_sp s
    have hone : s.depth < 0xFFFF := by omega
    have hnext := depth_withTop hone v
    obtain ⟨t, hrun, htdepth, hmem⟩ := ih (s := s.withTop v) herr (by omega)
    refine ⟨t, ⟨s.withTop v, exec_push_ok hone v, herr, hrun⟩, by omega, fun a => ?_⟩
    rw [hmem, withTop_sp_toNat hone, State.withTop, read_write]
    grind

/-- Settles O9: from the empty stack, `SP = 0xFFFF`, the pushes fill the addresses below it one by one. -/
theorem stackCapacity : Obligations.StackCapacity := by
  intro v s hzero herr n hn
  obtain ⟨t, hrun, hdepth, hmem⟩ := execSeq_replicate_push v n herr (by omega)
  have hsp : s.sp.toNat = 65535 := by have := depth_add_sp s; omega
  rw [hsp] at hmem
  exact ⟨t, hrun, by omega, hmem, fun hfull => push_full (sp_eq_full (by omega))⟩

end Sys2Proof.Machine
end

section
/-! SUPPORT. What the instructions other than `IO` leave unchanged (R60): the statements about their frames. -/

namespace Sys2Proof.Machine

open Sys2Proof.Spec

/-! ### What every instruction but `IO` keeps -/

theorem keepsRest_refl (s : State) : KeepsRest s s := ⟨rfl, rfl, rfl, rfl, .inl ⟨rfl, rfl⟩⟩

/-- An instruction's stop keeps the rest, since the error it records is one that `KeepsRest` names. -/
theorem keepsRest_raise {s t : State} (h : KeepsRest s t) {e : ErrorSlot} (he : e ∈ execErrors) : KeepsRest s (raise e t) := by
  obtain ⟨hbp, hhost, hschedule, hfree, -⟩ := h
  have he' : e = .stackOverflow ∨ e = .stackUnderflow ∨ e = .divisionByZero ∨ e = .halt := by simpa [execErrors] using he
  exact ⟨hbp, hhost, hschedule, hfree, .inr ⟨he', rfl⟩⟩

theorem blockCongruence_keepsRest (s : State) : BlockCongruence (Diagonal (KeepsRest s)) where
  mem h := h.1 ▸ rfl
  pc h := h.1 ▸ rfl
  sp h := h.1 ▸ rfl
  stopped := by rintro t _ ⟨rfl, h⟩ e he; exact ⟨rfl, keepsRest_raise h he⟩
  withPc := by rintro t _ ⟨rfl, h⟩ n -; exact ⟨rfl, h⟩
  withSp := by rintro t _ ⟨rfl, h⟩ a; exact ⟨rfl, h⟩
  withByte := by rintro t _ ⟨rfl, h⟩ a v; exact ⟨rfl, h⟩

theorem exec_keepsRest {i : Instr} {s t : State} (h : exec i s = .next t) (hi : ∀ id, i ≠ .io id := by simp) :
    KeepsRest s t :=
  exec_keeps (blockCongruence_keepsRest s) hi (keepsRest_refl s) h

/-- Settles O41: host, schedule and counter are among what every other instruction keeps. -/
theorem onlyIoReachesTheHost : Obligations.OnlyIoReachesTheHost := by
  intro i s t hi h
  obtain ⟨-, hhost, hschedule, hfree, -⟩ := exec_keepsRest h hi
  exact ⟨hhost, hschedule, hfree⟩

/-! ### Memory and `PC` -/

/-- `PC` and every byte of memory but those at the addresses `on` go from `s` to `t` unchanged. -/
def KeepsOff (on : Nat → Prop) (s t : State) : Prop := t.pc = s.pc ∧ ∀ a, ¬ on a → t.mem.read a = s.mem.read a

section KeepsOff
variable {on : Nat → Prop} {s t : State}

theorem keepsOff_of_eq (hpc : t.pc = s.pc) (hmem : t.mem = s.mem) : KeepsOff on s t := ⟨hpc, fun _ _ => by rw [hmem]⟩

theorem KeepsOff.trans {u : State} (h : KeepsOff on s t) (h' : KeepsOff on t u) : KeepsOff on s u := by
  obtain ⟨hpc, hmem⟩ := h
  obtain ⟨hpc', hmem'⟩ := h'
  exact ⟨hpc'.trans hpc, fun a ha => (hmem' a ha).trans (hmem a ha)⟩

theorem keepsOff_write {a : Nat} {v : Byte} (hpc : t.pc = s.pc) (hmem : t.mem = s.mem.write a v) (ha : on a) : KeepsOff on s t :=
  ⟨hpc, fun b hb => by rw [hmem, read_write_ne _ _ (by rintro rfl; exact hb ha)]⟩

/-- A push changes at most the byte below `SP`. -/
theorem push_keepsOff {v : Byte} (h : push v s = .next t) (hon : s.sp ≠ 0x0000#16 → on (s.sp - 1).toNat) :
    KeepsOff on s t := by
  rcases push_cases h with ⟨-, rfl⟩ | ⟨hroom, rfl⟩
  · exact keepsOff_of_eq rfl rfl
  · exact keepsOff_write rfl rfl (hon hroom)

theorem pop_keepsOff {rest : Byte → State → Result} (h : pop s rest = .next t)
    (hrest : s.sp ≠ 0xFFFF#16 → rest (s.byteAt s.sp) s.popped = .next t → KeepsOff on s.popped t) : KeepsOff on s t := by
  rcases pop_cases h with ⟨-, rfl⟩ | ⟨hne, h⟩
  · exact keepsOff_of_eq rfl rfl
  · exact .trans (t := s.popped) (keepsOff_of_eq rfl rfl) (hrest hne h)

/-- Two pops move nothing; what comes after them starts with two bytes less. -/
theorem popTwo_keepsOff {rest : Byte → Byte → State → Result} (h : popTwo s rest = .next t)
    (hrest : 2 ≤ s.depth → rest (stackByte s 1) (stackByte s 0) (s.poppedTimes 2) = .next t →
      KeepsOff on (s.poppedTimes 2) t) :
    KeepsOff on s t := by
  obtain hzero | hone | htwo : s.depth = 0 ∨ s.depth = 1 ∨ 2 ≤ s.depth := by omega
  · rw [popTwo_zero hzero] at h; cases h; exact keepsOff_of_eq rfl rfl
  · rw [popTwo_one hone] at h; cases h; exact keepsOff_of_eq rfl rfl
  · rw [popTwo_poppedTimes htwo] at h
    exact .trans (t := s.poppedTimes 2) (keepsOff_of_eq rfl rfl) (hrest htwo h)

/-- After two pops a push writes at the old `SP + 1`. -/
theorem push_poppedTimes_two_keepsOff {v : Byte} (htwo : 2 ≤ s.depth) (h : push v (s.poppedTimes 2) = .next t) :
    KeepsOff (· = s.sp.toNat + 1) (s.poppedTimes 2) t := by
  refine push_keepsOff h fun _ => ?_
  have hroom : (s.poppedTimes 2).depth < 0xFFFF := by
    have := depth_add_sp s
    rw [depth_poppedTimes htwo]; omega
  show ((s.poppedTimes 2).sp - 1).toNat = s.sp.toNat + 1
  rw [sp_pred_toNat hroom, poppedTimes_sp_toNat htwo]
  rfl

/-- Two pops and one push, of any byte, change at most the byte at the result's place (R110). -/
theorem popTwo_push_keepsOff {v : Byte → Byte → State → Byte} (h : popTwo s (fun a b u => push (v a b u) u) = .next t) :
    KeepsOff (· = s.sp.toNat + 1) s t :=
  popTwo_keepsOff h push_poppedTimes_two_keepsOff

theorem divide_keepsOff {f : Byte → Byte → Byte} (h : divide f s = .next t) : KeepsOff (· = s.sp.toNat + 1) s t := by
  refine popTwo_keepsOff h fun htwo h => ?_
  split at h
  · cases h; exact keepsOff_of_eq rfl rfl
  · exact push_poppedTimes_two_keepsOff htwo h

theorem binary_keepsOff {f : Byte → Byte → Byte} (h : binary f s = .next t) : KeepsOff (· = s.sp.toNat + 1) s t :=
  popTwo_push_keepsOff (v := fun a b _ => f a b) h

theorem compare_keepsOff {rel : Byte → Byte → Bool} (h : compare rel s = .next t) : KeepsOff (· = s.sp.toNat + 1) s t :=
  popTwo_push_keepsOff (v := fun a b _ => truthByte (rel a b)) h

/-- `Unary` writes where it has popped, and leaves `SP` (R110). -/
theorem unaryRule_frame {i : Instr} {f : Nat → Nat} (hrule : UnaryRule i f) (h : exec i s = .next t) :
    t.sp = s.sp ∧ KeepsOff (· = s.sp.toNat) s t := by
  obtain ⟨hresult, hunder⟩ := hrule s
  obtain hzero | hone : s.depth = 0 ∨ 1 ≤ s.depth := by omega
  · cases h.symm.trans (hunder hzero)
    exact ⟨rfl, keepsOff_of_eq rfl rfl⟩
  · cases h.symm.trans (hresult hone)
    exact ⟨rfl, keepsOff_write rfl rfl rfl⟩

end KeepsOff

/-- The instructions that pop two bytes and push one. -/
theorem exec_twoToOne_keepsOff {i : Instr} {s t : State} (hi : i ∈ twoToOne) (h : exec i s = .next t) :
    KeepsOff (· = s.sp.toNat + 1) s t := by
  cases i with
  | add | sub | mul | and | or | xor | shl | shr => exact binary_keepsOff h
  | eq | neq | gt | lt | gte | lte => exact compare_keepsOff h
  | loadInd =>
    rw [exec_loadInd_eq_popTwo] at h
    exact popTwo_push_keepsOff (v := fun hi lo u => u.byteAt (addrOf hi lo)) h
  | div | mod => exact divide_keepsOff h
  | _ => simp [twoToOne] at hi

/-- Settles O37: two pops and a push write at `SP + 1` alone, `Unary` at `SP` alone. -/
theorem frameAluAndCompare : Obligations.FrameAluAndCompare := by
  constructor
  · intro i s t hi h
    have hio : ∀ id, i ≠ .io id := by rintro id rfl; simp [twoToOne] at hi
    exact ⟨exec_keepsRest h hio, exec_twoToOne_keepsOff hi h⟩
  · obtain ⟨-, -, hneg, hnot⟩ := negNotResult
    rintro i s t (rfl | rfl) h
    · obtain ⟨hsp, hpc, hmem⟩ := unaryRule_frame hneg h
      exact ⟨exec_keepsRest h, hpc, hsp, hmem⟩
    · obtain ⟨hsp, hpc, hmem⟩ := unaryRule_frame hnot h
      exact ⟨exec_keepsRest h, hpc, hsp, hmem⟩

/-! ### The pushing instructions -/

theorem pushRule_frame {i : Instr} {v : State → Byte} {s t : State} (hrule : PushRule i v) (h : exec i s = .next t) :
    KeepsOff (· = s.sp.toNat - 1) s t := by
  obtain ⟨hresult, hover⟩ := hrule s
  have hdepth := depth_add_sp s
  obtain hroom | hfull : s.depth < 0xFFFF ∨ s.depth = 0xFFFF := by omega
  · cases h.symm.trans (hresult hroom)
    exact keepsOff_write rfl rfl rfl
  · cases h.symm.trans (hover hfull)
    exact keepsOff_of_eq rfl rfl

theorem exec_dup_keepsOff {s t : State} (h : exec .dup s = .next t) : KeepsOff (· = s.sp.toNat - 1) s t := by
  rw [exec_dup] at h
  split at h
  · cases h; exact keepsOff_of_eq rfl rfl
  · exact push_keepsOff h fun hne => sp_pred_toNat ((sp_ne_full_iff s).1 hne)

/-- `CALL` writes the two bytes below `SP`. -/
theorem exec_call_mem {addr : Addr} {s t : State} (h : exec (.call addr) s = .next t) {a : Nat} (h1 : a ≠ s.sp.toNat - 1)
    (h2 : a ≠ s.sp.toNat - 2) : t.mem.read a = s.mem.read a := by
  have hdepth := depth_add_sp s
  obtain ⟨-, hcall⟩ := callPushesReturnAddress
  obtain ⟨-, -, hrule⟩ := hcall addr
  obtain ⟨htwo, hone, hnone⟩ := hrule s
  obtain hd | hd | hd : s.depth ≤ 0xFFFD ∨ s.depth = 0xFFFE ∨ s.depth = 0xFFFF := by omega
  · cases h.symm.trans (htwo hd)
    exact (read_write_ne _ _ h2).trans (read_write_ne _ _ h1)
  · cases h.symm.trans (hone hd)
    exact read_write_ne _ _ (by omega)
  · cases h.symm.trans (hnone hd)
    rfl

theorem exec_swap_keepsOff {s t : State} (h : exec .swap s = .next t) :
    KeepsOff (fun a => a = s.sp.toNat ∨ a = s.sp.toNat + 1) s t := by
  obtain ⟨-, -, -, htwo, hunder⟩ := dupAndSwapResult
  obtain ⟨hone, hzero⟩ := hunder s
  obtain hd | hd | hd : s.depth = 0 ∨ s.depth = 1 ∨ 2 ≤ s.depth := by omega
  · cases h.symm.trans (hzero hd); exact keepsOff_of_eq rfl rfl
  · cases h.symm.trans (hone hd); exact keepsOff_of_eq rfl rfl
  · cases h.symm.trans (htwo s hd)
    refine ⟨rfl, fun a ha => ?_⟩
    obtain ⟨ha0, ha1⟩ := not_or.1 ha
    exact (read_write_ne _ _ ha0).trans (read_write_ne _ _ ha1)

/-- Settles O38: `PUSH`, `DUP` and `LOAD` are one push, `CALL` two, and `SWAP` pushes where it has popped. -/
theorem framePushes : Obligations.FramePushes := by
  refine ⟨?_, fun addr s t h => ⟨exec_keepsRest h, fun a => exec_call_mem h⟩, fun s t h => ?_⟩
  · rintro v addr i s t (rfl | rfl | rfl) h
    · exact ⟨exec_keepsRest h, pushRule_frame (pushRule_of_exec_eq_push (v := fun _ => v) fun _ => rfl) h⟩
    · exact ⟨exec_keepsRest h, exec_dup_keepsOff h⟩
    · exact ⟨exec_keepsRest h, pushRule_frame (pushRule_of_exec_eq_push (v := fun u => u.byteAt addr) fun _ => rfl) h⟩
  · obtain ⟨hpc, hmem⟩ := exec_swap_keepsOff h
    exact ⟨exec_keepsRest h, hpc, fun a h0 h1 => hmem a (not_or.2 ⟨h0, h1⟩)⟩

/-! ### The storing instructions, and those that store nothing -/

theorem exec_store_keepsOff {addr : Addr} {s t : State} (h : exec (.store addr) s = .next t) :
    KeepsOff (· = addr.toNat) s t := by
  rw [exec_store] at h
  refine pop_keepsOff h fun _ h => ?_
  cases h
  exact keepsOff_write rfl rfl rfl

theorem exec_storeInd_keepsOff {s t : State} (h : exec .storeInd s = .next t) :
    KeepsOff (· = (addrOf (stackByte s 1) (stackByte s 0)).toNat) s t := by
  rw [exec_storeInd] at h
  refine popTwo_keepsOff h fun _ h => pop_keepsOff h fun _ h => ?_
  cases h
  exact keepsOff_write rfl rfl rfl

/-- Settles O39: the write is at the address the definition computes, after the pops. -/
theorem frameStores : Obligations.FrameStores :=
  ⟨fun _ _ _ h => ⟨exec_keepsRest h, exec_store_keepsOff h⟩,
    fun _ _ h => ⟨exec_keepsRest h, exec_storeInd_keepsOff h⟩⟩

/-- A pop and what stores nothing after it store nothing. -/
theorem pop_keeps_mem {s t : State} {rest : Byte → State → Result} (h : pop s rest = .next t)
    (hrest : ∀ v u, rest v u = .next t → t.mem = u.mem) : t.mem = s.mem := by
  rcases pop_cases h with ⟨-, rfl⟩ | ⟨-, h⟩
  · rfl
  · exact hrest _ s.popped h

theorem exec_ret_mem {s t : State} (h : exec .ret s = .next t) : t.mem = s.mem :=
  pop_keeps_mem (s := s) (rest := fun hi u => pop u fun lo w => .next (w.withPc (addrOf hi lo).toNat)) h
    fun _ _ h => pop_keeps_mem h fun _ _ h => by cases h; rfl

theorem exec_pop_keepsOff {s t : State} (on : Nat → Prop) (h : exec .pop s = .next t) : KeepsOff on s t := by
  rw [exec_pop] at h
  exact pop_keepsOff h fun _ h => by cases h; exact keepsOff_of_eq rfl rfl

theorem branch_mem {p : Byte → Prop} [DecidablePred p] {addr : Addr} {s t : State}
    (h : (pop s fun v u => .next (if p v then u.withPc addr.toNat else u)) = .next t) : t.mem = s.mem := by
  refine pop_keeps_mem h fun v u h => ?_
  cases h
  split <;> rfl

/-- Settles O36: none of these writes, and those that pop nothing or do not jump leave `SP` or `PC` too. -/
theorem frameStoresNothing : Obligations.FrameStoresNothing := by
  intro addr i s t hi h
  have hi' : i = .nop ∨ i = .halt ∨ i = .pop ∨ i = .ret ∨ i = .jmp addr ∨ i = .jz addr ∨ i = .jnz addr := by
    simpa [storesNothing] using hi
  rcases hi' with rfl | rfl | rfl | rfl | rfl | rfl | rfl
  · cases h; exact ⟨keepsRest_refl s, fun _ => rfl, fun _ => rfl, fun _ => rfl⟩
  · have hrest := exec_keepsRest h
    cases h; exact ⟨hrest, fun _ => rfl, fun _ => rfl, fun _ => rfl⟩
  · obtain ⟨hpc, hmem⟩ := exec_pop_keepsOff (fun _ => False) h
    exact ⟨exec_keepsRest h, fun a => hmem a id, by simp, fun _ => hpc⟩
  · exact ⟨exec_keepsRest h, fun a => by rw [exec_ret_mem h], by simp, by simp⟩
  · have hrest := exec_keepsRest h
    cases h; exact ⟨hrest, fun _ => rfl, fun _ => rfl, by simp⟩
  · exact ⟨exec_keepsRest h, fun a => by rw [branch_mem (p := (· = 0#8)) h], by simp, by simp⟩
  · exact ⟨exec_keepsRest h, fun a => by rw [branch_mem (p := (· ≠ 0#8)) h], by simp, by simp⟩

end Sys2Proof.Machine
end

section
/-! SUPPORT. The host's operations as requests on the stack port (R48, R165, R166), and the statements about them. -/

namespace Sys2Proof.Machine

open Sys2Proof.Spec

/-! ### The result of a transaction (R161, R162) -/

/-- A fault recorded during the transaction stands, whatever the status. -/
theorem ioResult_fault {s : State} (id : Byte) (status : HostStatus) (he : s.error ≠ .ok) :
    ioResult id (status, s) = .next s := by
  rw [ioResult, if_pos he]

theorem ioResult_notOk {s : State} {id : Byte} (he : s.error = .ok) (hid : id ≠ 0x00#8) :
    ioResult id (.notOk, s) = .next (raise .hostIo s) := by
  rw [ioResult, if_neg (not_not.2 he)]
  exact if_neg hid

theorem ioResult_exit {s : State} (he : s.error = .ok) : ioResult 0x00#8 (.notOk, s) = .next (halt s) := by
  rw [ioResult, if_neg (not_not.2 he)]
  exact if_pos rfl

/-- Settles O27: the result rule case by case, and `EXIT` as a transaction that requests nothing. -/
theorem ioResultHandling : Obligations.IoResultHandling :=
  ⟨operandFetchFaults_imm8 (mk := .io) rfl, fun _ => exec_exit, fun id status _ =>
    ⟨rfl, fetchedWith_fetchAdvance (.io id), rfl, ioResult_fault id status, ioResult_ok id,
      fun he hid => hid ▸ ioResult_exit he, ioResult_notOk⟩⟩

/-- An `IO` that has a next state ends in the state after the transaction, or stops there. -/
theorem exec_io_cases {id : Byte} {s t : State} (h : exec (.io id) s = .next t) :
    ∃ e r, t = { (hostIO id s).2 with error := e, running := r } := by
  have hresult : ioResult id (hostIO id s) = .next t := h
  unfold ioResult at hresult
  split at hresult
  · cases hresult; exact ⟨_, _, rfl⟩
  · split at hresult
    · cases hresult; exact ⟨_, _, rfl⟩
    · split at hresult <;> cases hresult <;> exact ⟨_, _, rfl⟩

/-! ### The operations that show something (R168, R173, R179) -/

theorem hostIO_undefined {id : Byte} (hid : id ∉ definedIds) (s : State) : hostIO id s = (.notOk, s) := by
  have hne : ∀ n ∈ definedIds.map BitVec.toNat, id.toNat ≠ n := by
    rintro n hn rfl
    obtain ⟨v, hv, heq⟩ := List.mem_map.1 hn
    exact hid (BitVec.eq_of_toNat_eq heq ▸ hv)
  unfold hostIO
  split
  case h_14 => rfl
  all_goals next heq => exact absurd heq (hne _ (by decide))

theorem emit_ok {s : State} (he : s.error = .ok) (bytes : List Byte) :
    emit bytes s = mapHost s fun h => { h with stdout := h.stdout ++ bytes } := by
  rw [emit, if_neg (not_not.2 he)]
  rfl

/-- The host's first pop on a stack that is not empty. -/
theorem hPop_first {s : State} (he : s.error = .ok) (h : 1 ≤ s.depth) : hPop s = (stackByte s 0, s.poppedTimes 1) := by
  simpa using hPop_poppedTimes (k := 0) he h

theorem hostPrintChar_ok {s : State} (he : s.error = .ok) (h : 1 ≤ s.depth) : hostPrintChar s =
    (.ok, mapHost { s with sp := s.sp + 1 } fun h => { h with stdout := h.stdout ++ [stackByte s 0] }) := by
  simp only [hostPrintChar, hPop_first he h]
  rw [emit_ok (s := s.poppedTimes 1) he]
  rfl

/-- The schedule, and the picture that the last `REFRESH` flushed, go from `s` to `t` unchanged. -/
def KeepsDisplay (s t : State) : Prop := t.schedule = s.schedule ∧ t.host.refreshed = s.host.refreshed

theorem KeepsDisplay.trans {s t u : State} (h : KeepsDisplay s t) (h' : KeepsDisplay t u) : KeepsDisplay s u :=
  ⟨h'.1.trans h.1, h'.2.trans h.2⟩

theorem hPop_keepsDisplay (s : State) : KeepsDisplay s (hPop s).2 := by
  obtain ⟨hhost, hschedule, -⟩ := hPop_frame s
  exact ⟨hschedule, by rw [hhost]⟩

theorem hPush_keepsDisplay (v : Byte) (s : State) : KeepsDisplay s (hPush v s) := by
  obtain ⟨hhost, hschedule, -⟩ := hPush_frame v s
  exact ⟨hschedule, by rw [hhost]⟩

theorem emit_keepsDisplay (bytes : List Byte) (s : State) : KeepsDisplay s (emit bytes s) := by
  unfold emit; split <;> exact ⟨rfl, rfl⟩

theorem draw_keepsDisplay (pixels : List ((Nat × Nat) × Argb)) (s : State) : KeepsDisplay s (draw pixels s) := by
  unfold draw; split <;> exact ⟨rfl, rfl⟩

theorem hostPrintChar_keepsDisplay (s : State) : KeepsDisplay s (hostPrintChar s).2 :=
  (hPop_keepsDisplay s).trans (emit_keepsDisplay _ _)

theorem hostReadChar_keepsDisplay (s : State) : KeepsDisplay s (hostReadChar s).2 := by
  unfold hostReadChar
  split
  · exact hPush_keepsDisplay s.host.key s
  · exact ⟨rfl, rfl⟩

theorem hostDrawPixel_keepsDisplay (s : State) : KeepsDisplay s (hostDrawPixel s).2 :=
  (hPop_keepsDisplay s).trans <| (hPop_keepsDisplay _).trans <| (hPop_keepsDisplay _).trans (draw_keepsDisplay _ _)

theorem drawFive_keepsDisplay (pixels : Byte → Byte → Byte → Byte → Byte → List ((Nat × Nat) × Argb)) (s : State) :
    KeepsDisplay s (drawFive pixels s) :=
  (hPop_keepsDisplay s).trans <| (hPop_keepsDisplay _).trans <| (hPop_keepsDisplay _).trans <|
    (hPop_keepsDisplay _).trans <| (hPop_keepsDisplay _).trans (draw_keepsDisplay _ _)

theorem hPushWord_keepsDisplay (m : BitVec 16) (s : State) : KeepsDisplay s (hPushWord m s) :=
  (hPush_keepsDisplay _ s).trans (hPush_keepsDisplay _ _)

/-- No operation touches the schedule, and none but `REFRESH` what is shown. -/
theorem hostIO_keepsDisplay (id : Byte) (s : State) :
    (hostIO id s).2.schedule = s.schedule ∧ (id ≠ 0x13#8 → (hostIO id s).2.host.refreshed = s.host.refreshed) := by
  have both {t : State} (h : KeepsDisplay s t) :
      t.schedule = s.schedule ∧ (id ≠ 0x13#8 → t.host.refreshed = s.host.refreshed) := ⟨h.1, fun _ => h.2⟩
  unfold hostIO
  split
  -- in the order of the operation table (R166): EXIT, PRINT_CHAR, READ_CHAR, DRAW_PIXEL, DRAW_LINE, FILL_RECT, REFRESH,
  -- POLL_KEY, GET_KEY, POLL_MOUSE, GET_MOUSE_X, GET_MOUSE_Y, GET_MOUSE_B, undefined
  case h_1 | h_14 => exact ⟨rfl, fun _ => rfl⟩
  case h_2 => exact both (hostPrintChar_keepsDisplay s)
  case h_3 => exact both (hostReadChar_keepsDisplay s)
  case h_4 => exact both (hostDrawPixel_keepsDisplay s)
  case h_5 => simp only [hostDrawLine_eq_drawFive]; exact both (drawFive_keepsDisplay _ s)
  case h_6 => simp only [hostFillRect_eq_drawFive]; exact both (drawFive_keepsDisplay _ s)
  case h_7 hid => exact ⟨rfl, fun hne => absurd (BitVec.eq_of_toNat_eq hid) hne⟩
  case h_8 | h_9 | h_10 | h_13 => exact both (hPush_keepsDisplay _ s)
  case h_11 | h_12 => exact both (hPushWord_keepsDisplay _ s)

/-- Settles O28: each operation once its transaction is known; the others keep the display (`hostIO_keepsDisplay`). -/
theorem printRefreshUndefinedResult : Obligations.PrintRefreshUndefinedResult := by
  refine fun s he => ⟨fun hone => exec_io_ok (hostPrintChar_ok he hone) he,
    ⟨_, exec_io_ok (id := 0x13#8) rfl he, rfl, fun _ _ => rfl⟩, fun id t hid h _ _ => ?_, fun id hid => ?_⟩
  · obtain ⟨e, r, rfl⟩ := exec_io_cases h
    exact (hostIO_keepsDisplay id s).2 hid
  · calc exec (.io id) s
      _ = ioResult id (hostIO id s) := rfl
      _ = .next (raise .hostIo s) := by
          rw [hostIO_undefined hid, ioResult_notOk he]
          rintro rfl
          exact hid (by decide)

/-! ### Input (R169, R175, R177) -/

/-- Settles O29: without a key the rewind and the flag are all that happens; with one, the push comes before the flags. -/
theorem readCharProtocol : Obligations.ReadCharProtocol := by
  refine fun s he => ⟨fun hnokey => exec_io_ok (id := 0x02#8) ?_ he, fun hkey hroom => exec_io_ok (id := 0x02#8) ?_ he⟩
  · calc hostIO 0x02#8 s
      _ = hostReadChar s := rfl
      _ = _ := by rw [hostReadChar, if_neg (by simp [hnokey])]; rfl
  · calc hostIO 0x02#8 s
      _ = hostReadChar s := rfl
      _ = _ := by rw [hostReadChar, if_pos hkey, hPush_next he hroom]; rfl

theorem hostGetKey_ok {s : State} (he : s.error = .ok) (hroom : s.depth < 0xFFFF) :
    hostGetKey s = (.ok, mapHost { s with sp := s.sp - 1, mem := s.mem.write (s.sp.toNat - 1) s.host.key }
      fun h => { h with keyAvailable := false }) := by
  rw [hostGetKey, hPush_next he hroom]
  rfl

/-- The host's push of a coordinate with room for two bytes: low byte first (R177, D12). -/
theorem hPushWord_ok {s : State} (he : s.error = .ok) (hroom : s.depth ≤ 0xFFFD) (m : BitVec 16) :
    hPushWord m s = { s with
      sp := s.sp - 2
      mem := (s.mem.write (s.sp.toNat - 1) (BitVec.ofNat 8 (m.toNat % 256))).write (s.sp.toNat - 2)
        (BitVec.ofNat 8 (m.toNat / 256)) } := by
  have hone : s.depth < 0xFFFF := by omega
  have htwo : (s.withTop (lowByte m.toNat)).depth < 0xFFFF := by rw [depth_withTop hone]; omega
  have hfirst : hPush (lowByte m.toNat) s = s.withTop (lowByte m.toNat) := hPush_next he hone _
  have hsecond : hPush (highByte m.toNat) (s.withTop (lowByte m.toNat)) =
      (s.withTop (lowByte m.toNat)).withTop (highByte m.toNat) :=
    hPush_next (s := s.withTop _) he htwo _
  rw [hPushWord, hfirst, hsecond, withTop_withTop hone, highByte_addr]
  rfl

/-- Settles O33: `GET_KEY` is one push by the host and clears its flag, a coordinate is two pushes. -/
theorem getKeyAndMousePosition : Obligations.GetKeyAndMousePosition := by
  refine fun s he => ⟨fun hroom => exec_io_ok (hostGetKey_ok he hroom) he, fun hroom => ⟨?_, ?_⟩⟩
  · rw [← hPushWord_ok he hroom]
    exact exec_io_ok (id := 0x23#8) rfl (by rw [hPushWord_ok he hroom]; exact he)
  · rw [← hPushWord_ok he hroom]
    exact exec_io_ok (id := 0x24#8) rfl (by rw [hPushWord_ok he hroom]; exact he)

/-! ### Drawing (R170, R171) -/

theorem hostDrawPixel_ok {s : State} (he : s.error = .ok) (h : 3 ≤ s.depth) : hostDrawPixel s =
    (.ok, draw ([((stackByte s 2).toNat, (stackByte s 1).toNat)].map (·, grey (stackByte s 0))) (s.poppedTimes 3)) := by
  simp only [hostDrawPixel, hPop_first he (by omega), hPop_poppedTimes (k := 1) he (by omega),
    hPop_poppedTimes (k := 2) he (by omega), List.map_cons, List.map_nil]

theorem drawFive_ok {s : State} (he : s.error = .ok) (h : 5 ≤ s.depth)
    (pixels : Byte → Byte → Byte → Byte → Byte → List ((Nat × Nat) × Argb)) : drawFive pixels s =
      draw (pixels (stackByte s 0) (stackByte s 1) (stackByte s 2) (stackByte s 3) (stackByte s 4)) (s.poppedTimes 5) := by
  simp only [drawFive, hPop_first he (by omega), hPop_poppedTimes (k := 1) he (by omega), hPop_poppedTimes (k := 2) he (by omega),
    hPop_poppedTimes (k := 3) he (by omega), hPop_poppedTimes (k := 4) he (by omega)]

/-- Settles O31: the pops, then the pixels that the operation lists are painted (`painted_paint`). -/
theorem pixelAndLinePaint : Obligations.PixelAndLinePaint := by
  refine fun s he => ⟨fun hthree => ⟨_, ?_, painted_paint s.host.framebuffer (stackByte s 0)
    (pixels := [((stackByte s 2).toNat, (stackByte s 1).toNat)]) (by simp)⟩,
    fun hfive => ⟨_, ?_, painted_paint s.host.framebuffer (stackByte s 0) (fun _ _ => Iff.rfl)⟩⟩
  · refine exec_io_ok ?_ he
    calc hostIO 0x10#8 s
      _ = hostDrawPixel s := rfl
      _ = _ := by rw [hostDrawPixel_ok he hthree, draw_ok (s := s.poppedTimes 3) he]; rfl
  · refine exec_io_ok ?_ he
    calc hostIO 0x11#8 s
      _ = hostDrawLine s := rfl
      _ = _ := by rw [hostDrawLine_eq_drawFive, drawFive_ok he hfive, draw_ok (s := s.poppedTimes 5) he]; rfl

end Sys2Proof.Machine
end

section
/-! SUPPORT. Each host operation as a sequence of requests on the stack port (R48, R165, R166), and the statements about what the
host can do to the block. -/

namespace Sys2Proof.Machine

open Sys2Proof.Spec

/-! ### Sequences of requests -/

theorem sameBlock_refl (s : State) : SameBlock s s := ⟨rfl, rfl, rfl, rfl, rfl, rfl⟩

/-- With an error on record only a rewind has an effect, and only on `PC` (D5). -/
theorem portStep_of_error {s : State} (he : s.error ≠ .ok) (r : PortRequest) :
    ∃ n, portStep s r = s.withPc n ∧ (r ≠ .rewind → n = s.pc) := by
  cases r with
  | pop => exact ⟨s.pc, by simp only [portStep, hPop, if_pos he]; rfl, fun _ => rfl⟩
  | push v => exact ⟨s.pc, by simp only [portStep, hPush, if_pos he]; rfl, fun _ => rfl⟩
  | rewind => exact ⟨s.pc - 2, rfl, fun h => absurd rfl h⟩

theorem portRun_of_error {s : State} (he : s.error ≠ .ok) (rs : List PortRequest) :
    ∃ n, portRun s rs = s.withPc n ∧ (PortRequest.rewind ∉ rs → n = s.pc) := by
  induction rs generalizing s with
  | nil => exact ⟨s.pc, rfl, fun _ => rfl⟩
  | cons r rest ih =>
    obtain ⟨n, hstep, hpc⟩ := portStep_of_error he r
    obtain ⟨m, hrun, hpc'⟩ := ih (s := s.withPc n) he
    refine ⟨m, by rw [portRun, hstep, hrun]; rfl, fun hrewind => ?_⟩
    have hr := List.ne_of_not_mem_cons hrewind
    have hrest := List.not_mem_of_not_mem_cons hrewind
    rw [hpc' hrest, withPc_pc, hpc (Ne.symm hr)]

/-- With an error on record, requests other than a rewind have no effect. -/
theorem portRun_eq_of_error {s : State} (he : s.error ≠ .ok) {rs : List PortRequest} (hrs : PortRequest.rewind ∉ rs) :
    portRun s rs = s := by
  obtain ⟨n, hrun, hpc⟩ := portRun_of_error he rs
  rw [hrun, hpc hrs]
  rfl

theorem portRun_bp (s : State) (rs : List PortRequest) : (portRun s rs).bp = s.bp := by
  induction rs generalizing s with
  | nil => rfl
  | cons r rest ih =>
    rw [portRun, ih]
    cases r with
    | pop => obtain ⟨-, -, -, -, -, hbp⟩ := hPop_frame s; exact hbp
    | push v => obtain ⟨-, -, -, -, hbp⟩ := hPush_frame v s; exact hbp
    | rewind => rfl

theorem portRun_pc {rs : List PortRequest} (hrs : PortRequest.rewind ∉ rs) (s : State) : (portRun s rs).pc = s.pc := by
  induction rs generalizing s with
  | nil => rfl
  | cons r rest ih =>
    have hr := List.ne_of_not_mem_cons hrs
    have hrest := List.not_mem_of_not_mem_cons hrs
    rw [portRun, ih hrest]
    cases r with
    | pop => obtain ⟨-, -, -, -, hpc, -⟩ := hPop_frame s; exact hpc
    | push v => obtain ⟨-, -, -, hpc, -⟩ := hPush_frame v s; exact hpc
    | rewind => exact absurd rfl hr

/-! ### The requests of each operation (R166) -/

/-- The bytes a host operation other than `READ_CHAR` pushes, in order (R174 to R178). -/
def hostPushes (id : Byte) (h : HostContext) : List Byte :=
  if id = 0x20#8 then [truthByte h.keyAvailable]
  else if id = 0x21#8 then [h.key]
  else if id = 0x22#8 then [truthByte h.mouseEvent]
  else if id = 0x23#8 then [lowByte h.mouseX.toNat, highByte h.mouseX.toNat]
  else if id = 0x24#8 then [lowByte h.mouseY.toNat, highByte h.mouseY.toNat]
  else if id = 0x25#8 then [h.mouseMask]
  else []

/-- The requests of the operation `id`, made in `s`. -/
def portRequests (id : Byte) (s : State) : List PortRequest :=
  if id = 0x02#8 then if s.host.keyAvailable then [.push s.host.key] else [.rewind]
  else if id ∈ poppingIds.map Prod.fst then List.replicate ((poppingIds.lookup id).getD 0) .pop
  else (hostPushes id s.host).map .push

theorem portRequests_undefined {id : Byte} (hid : id ∉ definedIds) (s : State) : portRequests id s = [] := by
  simp only [definedIds, List.mem_cons, List.not_mem_nil, or_false, not_or] at hid
  simp [portRequests, hostPushes, poppingIds, hid]

theorem drawFive_block (pixels : Byte → Byte → Byte → Byte → Byte → List ((Nat × Nat) × Argb)) (s : State) :
    SameBlock (drawFive pixels s) (portRun s (List.replicate 5 .pop)) := draw_block _ _

/-- What the operations pop and push is requested on the port, and what they do besides leaves the block (R60, R165). -/
theorem hostIO_sameBlock (id : Byte) (s : State) : SameBlock (hostIO id s).2 (portRun s (portRequests id s)) := by
  by_cases hid : id ∈ definedIds
  · simp only [definedIds, List.mem_cons, List.not_mem_nil, or_false] at hid
    rcases hid with rfl | rfl | rfl | rfl | rfl | rfl | rfl | rfl | rfl | rfl | rfl | rfl | rfl
    -- in the order of the operation table (R166)
    · exact sameBlock_refl s
    · exact emit_block _ _
    · show SameBlock (hostReadChar s).2 (portRun s (if s.host.keyAvailable then [.push s.host.key] else [.rewind]))
      unfold hostReadChar
      split <;> exact sameBlock_refl _
    · exact draw_block _ _
    · show SameBlock (hostDrawLine s).2 (portRun s (List.replicate 5 .pop))
      simp only [hostDrawLine_eq_drawFive, drawFive_block]
    · show SameBlock (hostFillRect s).2 (portRun s (List.replicate 5 .pop))
      simp only [hostFillRect_eq_drawFive, drawFive_block]
    · exact sameBlock_refl s
    · exact sameBlock_refl _
    · exact sameBlock_refl _
    · exact sameBlock_refl _
    · exact sameBlock_refl _
    · exact sameBlock_refl _
    · exact sameBlock_refl _
  · rw [hostIO_undefined hid, portRequests_undefined hid]
    exact sameBlock_refl s

/-- The requests are pops alone, at most two pushes alone, or the rewind of `READ_CHAR` (R165, R166). -/
theorem portRequests_cases (id : Byte) (s : State) :
    (∃ n, portRequests id s = List.replicate n .pop) ∨
    (∃ vs : List Byte, portRequests id s = vs.map .push ∧ vs.length ≤ 2 ∧
      (id = 0x02#8 ∨ id ∈ pushingIds.map Prod.fst)) ∨
    (id = 0x02#8 ∧ portRequests id s = [.rewind]) := by
  by_cases hread : id = 0x02#8
  · rw [portRequests, if_pos hread]
    split
    · exact .inr (.inl ⟨[s.host.key], rfl, by simp, .inl hread⟩)
    · exact .inr (.inr ⟨hread, rfl⟩)
  · rw [portRequests, if_neg hread]
    split
    · exact .inl ⟨_, rfl⟩
    · by_cases hpush : id ∈ pushingIds.map Prod.fst
      · refine .inr (.inl ⟨_, rfl, ?_, .inr hpush⟩)
        unfold hostPushes
        split_ifs <;> simp
      · have hnone : hostPushes id s.host = [] := by
          simp only [pushingIds, List.map_cons, List.map_nil, List.mem_cons, List.not_mem_nil, or_false, not_or] at hpush
          simp [hostPushes, hpush]
        exact .inl ⟨0, by rw [hnone]; rfl⟩

theorem readChar_of_rewind_mem {id : Byte} {s : State} (h : PortRequest.rewind ∈ portRequests id s) : id = 0x02#8 := by
  rcases portRequests_cases id s with ⟨n, hpops⟩ | ⟨vs, hpushes, -⟩ | ⟨hid, -⟩
  · rw [hpops] at h; simp at h
  · rw [hpushes] at h; simp at h
  · exact hid

/-- Settles O35: a fault recorded makes every pop and push void, and `hostIO_sameBlock` names the requests of each operation. -/
theorem hostConfinedToPort : Obligations.HostConfinedToPort := by
  refine ⟨fun s rs he => ?_, fun id s => ⟨portRequests id s, hostIO_sameBlock id s, readChar_of_rewind_mem⟩⟩
  obtain ⟨n, hrun, hpc⟩ := portRun_of_error he rs
  rw [hrun]
  exact ⟨rfl, rfl, rfl, rfl, rfl, hpc⟩

/-! ### The frame of `IO` -/

theorem portRun_pops_mem (n : Nat) (s : State) : (portRun s (List.replicate n .pop)).mem = s.mem := by
  induction n generalizing s with
  | zero => rfl
  | succ n ih =>
    obtain ⟨-, -, -, hmem, -⟩ := hPop_frame s
    exact (ih (hPop s).2).trans hmem

/-- A push by the host changes at most the byte below `SP`, and lowers `SP` by at most one. -/
theorem hPush_mem (v : Byte) (s : State) :
    ((hPush v s).sp.toNat = s.sp.toNat ∧ (hPush v s).mem = s.mem) ∨
    ((hPush v s).sp.toNat = s.sp.toNat - 1 ∧ (hPush v s).mem = s.mem.write (s.sp.toNat - 1) v) := by
  rcases hPush_cases v s with ⟨-, h⟩ | ⟨-, -, h⟩ | ⟨-, hne, h⟩ <;> rw [h]
  · exact .inl ⟨rfl, rfl⟩
  · exact .inl ⟨rfl, rfl⟩
  · have hroom := (sp_ne_full_iff s).1 hne
    rw [pushed_eq_withTop hroom]
    exact .inr ⟨withTop_sp_toNat hroom v, rfl⟩

/-- Pushes by the host write at most as many bytes below `SP` as they are. -/
theorem portRun_pushes_mem (vs : List Byte) {s : State} {a : Nat} (ha : ∀ k < vs.length, a ≠ s.sp.toNat - (k + 1)) :
    (portRun s (vs.map .push)).mem.read a = s.mem.read a := by
  induction vs generalizing s with
  | nil => rfl
  | cons v rest ih =>
    rw [List.length_cons] at ha
    have hfirst : a ≠ s.sp.toNat - 1 := ha 0 (by omega)
    show (portRun (hPush v s) (rest.map .push)).mem.read a = s.mem.read a
    rcases hPush_mem v s with ⟨hsp, hmem⟩ | ⟨hsp, hmem⟩
    · rw [ih fun k hk => ?_, hmem]
      rw [hsp]; exact ha k (by omega)
    · rw [ih fun k hk => ?_, hmem, read_write_ne _ _ hfirst]
      have := ha (k + 1) (by omega)
      omega

/-- Settles O40: the block after an `IO` is the block after the operation's requests, but for a stop. -/
theorem frameIo : Obligations.FrameIo := by
  intro id s t h
  obtain ⟨e, r, rfl⟩ := exec_io_cases h
  obtain ⟨hmem, hpc, -, hbp, -⟩ := hostIO_sameBlock id s
  refine ⟨hbp.trans (portRun_bp s _), (hostIO_keepsDisplay id s).1, fun hid => ?_, fun hid hpush a => ?_, fun a h1 h2 => ?_⟩
  · exact hpc.trans (portRun_pc (fun hrewind => hid (readChar_of_rewind_mem hrewind)) s)
  · show (hostIO id s).2.mem.read a = s.mem.read a
    rw [hmem]
    rcases portRequests_cases id s with ⟨n, hpops⟩ | ⟨vs, -, -, hid' | hpush'⟩ | ⟨hid', -⟩
    · rw [hpops, portRun_pops_mem]
    · exact absurd hid' hid
    · exact absurd hpush' hpush
    · exact absurd hid' hid
  · show (hostIO id s).2.mem.read a = s.mem.read a
    rw [hmem]
    rcases portRequests_cases id s with ⟨n, hpops⟩ | ⟨vs, hpushes, hlength, -⟩ | ⟨-, hrewind⟩
    · rw [hpops, portRun_pops_mem]
    · rw [hpushes, portRun_pushes_mem]
      intro k hk
      have hk' : k < 2 := by omega
      interval_cases k
      · exact h1
      · exact h2
    · rw [hrewind]; rfl

/-! ### Stack faults inside a transaction (R162, D5) -/

/-- The block has stopped with `e`, with the stack pointer `a` and all else of `s`. -/
def StoppedAt (e : ErrorSlot) (a : Addr) (s t : State) : Prop :=
  t.error = e ∧ t.running = false ∧ t.sp = a ∧ t.mem = s.mem ∧ t.pc = s.pc ∧ t.bp = s.bp

/-- A port fault is the result of the `IO`. -/
theorem exec_io_port_fault {id : Byte} {s : State} {e : ErrorSlot} {a : Addr} (he : e ≠ .ok)
    (h : StoppedAt e a s (portRun s (portRequests id s))) : ∃ t, exec (.io id) s = .next t ∧ StoppedAt e a s t := by
  obtain ⟨hmem, hpc, hsp, hbp, hrun, herr⟩ := hostIO_sameBlock id s
  obtain ⟨herr', hrun', hsp', hmem', hpc', hbp'⟩ := h
  have hfault : (hostIO id s).2.error ≠ .ok := by rw [herr, herr']; exact he
  exact ⟨(hostIO id s).2, ioResult_fault id (hostIO id s).1 hfault,
    herr.trans herr', hrun.trans hrun', hsp.trans hsp', hmem.trans hmem', hpc.trans hpc', hbp.trans hbp'⟩

theorem portRun_pops_underflow (n : Nat) {s : State} (he : s.error = .ok) (h : s.depth < n) :
    StoppedAt .stackUnderflow 0xFFFF#16 s (portRun s (List.replicate n .pop)) := by
  induction n generalizing s with
  | zero => omega
  | succ n ih =>
    show StoppedAt _ _ s (portRun (hPop s).2 (List.replicate n .pop))
    by_cases hempty : s.sp = 0xFFFF#16
    · have hpop : hPop s = (0#8, raise .stackUnderflow s) := by rw [hPop, if_neg (not_not.2 he), if_pos hempty]
      rw [hpop, portRun_eq_of_error (by simp) (by simp)]
      exact ⟨rfl, rfl, hempty, rfl, rfl, rfl⟩
    · have hpop : hPop s = (s.byteAt s.sp, s.popped) := by rw [hPop, if_neg (not_not.2 he), if_neg hempty]
      have hdepth := (sp_ne_empty_iff s).1 hempty
      rw [hpop]
      exact ih (s := s.popped) he (by rw [depth_popped hdepth]; omega)

theorem hPush_full {s : State} (he : s.error = .ok) (hfull : s.sp = 0x0000#16) (v : Byte) :
    hPush v s = raise .stackOverflow s := by
  rw [hPush, if_neg (not_not.2 he), if_pos hfull]

theorem portRun_pushes_overflow {vs : List Byte} (hvs : vs ≠ []) {s : State} (he : s.error = .ok) (hfull : s.depth = 0xFFFF) :
    StoppedAt .stackOverflow 0x0000#16 s (portRun s (vs.map .push)) := by
  obtain ⟨v, rest, rfl⟩ := List.exists_cons_of_ne_nil hvs
  show StoppedAt _ _ s (portRun (hPush v s) (rest.map .push))
  rw [hPush_full he (sp_eq_full hfull), portRun_eq_of_error (by simp) (by simp)]
  exact ⟨rfl, rfl, sp_eq_full hfull, rfl, rfl, rfl⟩

theorem portRequests_popping {p : Byte × Nat} (hp : p ∈ poppingIds) (s : State) :
    portRequests p.1 s = List.replicate p.2 .pop := by
  simp only [poppingIds, List.mem_cons, List.not_mem_nil, or_false] at hp
  rcases hp with rfl | rfl | rfl | rfl <;> rfl

theorem portRequests_pushing {p : Byte × Nat} (hp : p ∈ pushingIds) (s : State) :
    portRequests p.1 s = (hostPushes p.1 s.host).map .push ∧ hostPushes p.1 s.host ≠ [] := by
  simp only [pushingIds, List.mem_cons, List.not_mem_nil, or_false] at hp
  rcases hp with rfl | rfl | rfl | rfl | rfl | rfl <;> exact ⟨rfl, List.cons_ne_nil _ _⟩

/-- The second push of a coordinate on a stack with room for one byte. -/
theorem hPushWord_one_left {s : State} (he : s.error = .ok) (hone : s.depth = 0xFFFE) (m : BitVec 16) :
    hPushWord m s =
      stopped { s with sp := 0x0000#16, mem := s.mem.write 0 (BitVec.ofNat 8 (m.toNat % 256)) } .stackOverflow := by
  have hfirst : hPush (lowByte m.toNat) s = s.withTop (lowByte m.toNat) := hPush_next he (by omega) _
  have hfull : (s.withTop (lowByte m.toNat)).sp = 0x0000#16 := by rw [withTop_of_one_left hone]
  rw [hPushWord, hfirst, hPush_full (s := s.withTop _) he hfull, withTop_of_one_left hone]
  rfl

/-- Settles O34: a fault ends the requests, and no later request of the transaction has an effect. -/
theorem portFaultStands : Obligations.PortFaultStands := by
  refine fun s he => ⟨fun p hp hfew => ?_, fun p hp hfull => ?_, fun hone => ⟨?_, ?_⟩, fun hkey hfull => ?_⟩
  · refine exec_io_port_fault nofun ?_
    rw [portRequests_popping hp]
    exact portRun_pops_underflow p.2 he hfew
  · obtain ⟨hrequests, hvs⟩ := portRequests_pushing hp s
    refine exec_io_port_fault nofun ?_
    rw [hrequests]
    exact portRun_pushes_overflow hvs he hfull
  · rw [← hPushWord_one_left he hone]
    exact ioResult_fault 0x23#8 .ok (by rw [hPushWord_one_left he hone]; nofun)
  · rw [← hPushWord_one_left he hone]
    exact ioResult_fault 0x24#8 .ok (by rw [hPushWord_one_left he hone]; nofun)
  · have hrequests : portRequests 0x02#8 s = [s.host.key].map .push := by
      rw [portRequests, if_pos rfl, if_pos hkey]; rfl
    refine exec_io_port_fault nofun ?_
    rw [hrequests]
    exact portRun_pushes_overflow (by simp) he hfull

end Sys2Proof.Machine
end

section
/-! SUPPORT. The net effect of instructions and host operations on the depth of the stack (R105, R166), and the statement about
it. -/

namespace Sys2Proof.Machine

open Sys2Proof.Spec

/-! ### Instructions but `IO` -/

/-- Where the result `r` of an instruction run in `s` is no fault, the stack is deeper by `n`. -/
def NetEffect (n : Int) (s : State) (r : Result) : Prop :=
  ∀ t, r = .next t → t.faulted = false → (t.depth : Int) = s.depth + n

section Net
variable {s : State} {n : Int}

theorem netEffect_next {t : State} (hsp : t.sp = s.sp := by rfl) (hn : n = 0 := by rfl) : NetEffect n s (.next t) := by
  intro u hu _
  cases hu
  rw [depth_eq_of_sp hsp, hn, add_zero]

theorem netEffect_raise {e : ErrorSlot} (he : (raise e s).faulted = true := by rfl) : NetEffect n s (.next (raise e s)) := by
  intro t ht hfault
  cases ht
  simp [he] at hfault

theorem netEffect_pop {rest : Byte → State → Result} (h : ∀ v u, NetEffect (n + 1) u (rest v u)) :
    NetEffect n s (pop s rest) := by
  intro t ht hfault
  rcases pop_cases ht with ⟨-, rfl⟩ | ⟨hne, ht⟩
  · cases hfault
  · have hone := (sp_ne_empty_iff s).1 hne
    have hrest := h _ s.popped t ht hfault
    rw [depth_popped hone] at hrest
    omega

theorem netEffect_pushThen (v : Byte) {rest : State → Result} (h : ∀ u, NetEffect (n - 1) u (rest u)) :
    NetEffect n s (pushThen v s rest) := by
  intro t ht hfault
  rcases pushThen_cases ht with ⟨-, rfl⟩ | ⟨hne, ht⟩
  · cases hfault
  · have hroom := (sp_ne_full_iff s).1 hne
    have hrest := h (s.pushed v) t ht hfault
    rw [depth_pushed hroom] at hrest
    omega

theorem netEffect_push (v : Byte) (hn : n = 1 := by rfl) : NetEffect n s (push v s) :=
  netEffect_pushThen v fun _ => netEffect_next (hn := by omega)

theorem netEffect_popTwo {rest : Byte → Byte → State → Result} (h : ∀ a b u, NetEffect (n + 2) u (rest a b u)) :
    NetEffect n s (popTwo s rest) :=
  netEffect_pop fun b _ => netEffect_pop fun a u => by rw [add_assoc]; exact h a b u

theorem netEffect_binary (f : Byte → Byte → Byte) : NetEffect (-1) s (binary f s) :=
  netEffect_popTwo fun _ _ _ => netEffect_push _

theorem netEffect_compare (rel : Byte → Byte → Bool) : NetEffect (-1) s (compare rel s) :=
  netEffect_popTwo fun _ _ _ => netEffect_push _

theorem netEffect_unary (f : Byte → Byte) : NetEffect 0 s (unary f s) := netEffect_pop fun _ _ => netEffect_push _

theorem netEffect_divide (f : Byte → Byte → Byte) : NetEffect (-1) s (divide f s) := by
  refine netEffect_popTwo fun a b u => ?_
  split
  · exact netEffect_raise
  · exact netEffect_push _

theorem netEffect_branch (p : Byte → Prop) [DecidablePred p] (addr : Addr) :
    NetEffect (-1) s (pop s fun v u => .next (if p v then u.withPc addr.toNat else u)) := by
  refine netEffect_pop fun v u => netEffect_next ?_
  split <;> rfl

theorem netEffect_dup : NetEffect 1 s (execDup s) := by
  unfold execDup
  split
  · exact netEffect_raise
  · exact netEffect_push _

end Net

/-! ### `IO` -/

/-- By how much a request that is answered without a fault deepens the stack. -/
def PortRequest.net : PortRequest → Int
  | .pop => -1
  | .push _ => 1
  | .rewind => 0

theorem portRun_faulted {s : State} (h : s.faulted = true) (rs : List PortRequest) : (portRun s rs).faulted = true := by
  have he : s.error ≠ .ok := fun he => by simp [State.faulted, he] at h
  obtain ⟨n, hrun, -⟩ := portRun_of_error he rs
  rw [hrun]
  exact h

theorem portStep_net {s : State} (he : s.error = .ok) (r : PortRequest) :
    (portStep s r).faulted = true ∨ ((portStep s r).error = .ok ∧ ((portStep s r).depth : Int) = s.depth + r.net) := by
  cases r with
  | pop =>
    show (hPop s).2.faulted = true ∨ ((hPop s).2.error = .ok ∧ ((hPop s).2.depth : Int) = s.depth + -1)
    rcases hPop_cases s with ⟨hne, -⟩ | ⟨-, -, h⟩ | ⟨-, hne, h⟩
    · exact absurd he hne
    · rw [h]; exact .inl rfl
    · have hone := (sp_ne_empty_iff s).1 hne
      rw [h, depth_popped hone]
      exact .inr ⟨he, by omega⟩
  | push v =>
    show (hPush v s).faulted = true ∨ ((hPush v s).error = .ok ∧ ((hPush v s).depth : Int) = s.depth + 1)
    rcases hPush_cases v s with ⟨hne, -⟩ | ⟨-, -, h⟩ | ⟨-, hne, h⟩
    · exact absurd he hne
    · rw [h]; exact .inl rfl
    · rw [h, depth_pushed ((sp_ne_full_iff s).1 hne)]
      exact .inr ⟨he, by omega⟩
  | rewind => exact .inr ⟨he, (add_zero _).symm⟩

/-- A sequence of requests faults, or deepens the stack by the sum of their nets. -/
theorem portRun_net {s : State} (he : s.error = .ok) (rs : List PortRequest) :
    (portRun s rs).faulted = true ∨
      ((portRun s rs).error = .ok ∧ ((portRun s rs).depth : Int) = s.depth + (rs.map PortRequest.net).sum) := by
  induction rs generalizing s with
  | nil => exact .inr ⟨he, (add_zero _).symm⟩
  | cons r rest ih =>
    rw [portRun, List.map_cons, List.sum_cons]
    rcases portStep_net he r with hfault | ⟨he', hdepth⟩
    · exact .inl (portRun_faulted hfault rest)
    · rcases ih he' with hfault | ⟨hok, hrest⟩
      · exact .inl hfault
      · exact .inr ⟨hok, by omega⟩

/-- The requests of each operation have the net of the operation table (R166, R169). -/
theorem portRequests_net (id : Byte) (s : State) : ((portRequests id s).map PortRequest.net).sum = hostNetPushes id s := by
  by_cases hid : id ∈ definedIds
  · simp only [definedIds, List.mem_cons, List.not_mem_nil, or_false] at hid
    rcases hid with rfl | rfl | rfl | hid
    · rfl
    · rfl
    · show ((if s.host.keyAvailable then [.push s.host.key] else [.rewind]).map PortRequest.net).sum =
        if s.host.keyAvailable then 1 else 0
      split <;> rfl
    · rcases hid with rfl | rfl | rfl | rfl | rfl | rfl | rfl | rfl | rfl | rfl <;> rfl
  · rw [portRequests_undefined hid]
    simp only [definedIds, List.mem_cons, List.not_mem_nil, or_false, not_or] at hid
    have hpush : pushingIds.lookup id = none := by simp [pushingIds, List.lookup_eq_none_iff, hid]
    have hpop : poppingIds.lookup id = none := by simp [poppingIds, List.lookup_eq_none_iff, hid]
    simp [hostNetPushes, hpush, hpop, hid]

theorem netEffect_io (id : Byte) {s : State} (he : s.error = .ok) : NetEffect (hostNetPushes id s) s (exec (.io id) s) := by
  intro t h hfault
  obtain ⟨-, -, hsp, -, -, herr⟩ := hostIO_sameBlock id s
  rcases portRun_net he (portRequests id s) with hport | ⟨-, hdepth⟩
  · have hfaulted : (hostIO id s).2.faulted = true := by rw [State.faulted, herr]; exact hport
    have hne : (hostIO id s).2.error ≠ .ok := fun hok => by simp [State.faulted, hok] at hfaulted
    have ht : (hostIO id s).2 = t := Host.Outcome.next.inj ((ioResult_fault id (hostIO id s).1 hne).symm.trans h)
    rw [← ht, hfaulted] at hfault
    cases hfault
  · obtain ⟨e, r, rfl⟩ := exec_io_cases h
    rw [← portRequests_net, ← hdepth]
    exact congrArg Int.ofNat (depth_eq_of_sp hsp)

/-! ### Every instruction, and sequences -/

theorem exec_netEffect (i : Instr) {s : State} (he : s.error = .ok) : NetEffect (netPushes i s) s (exec i s) := by
  cases i with
  | nop | halt | jmp => exact netEffect_next
  | push | load => exact netEffect_push _
  | pop => rw [exec_pop]; exact netEffect_pop fun _ _ => netEffect_next
  | dup => exact netEffect_dup
  | swap => rw [exec_swap]; exact netEffect_popTwo fun _ _ _ => netEffect_pushThen _ fun _ => netEffect_push _
  | add | sub | mul | and | or | xor | shl | shr => exact netEffect_binary _
  | div | mod => exact netEffect_divide _
  | neg | not => exact netEffect_unary _
  | eq | neq | gt | lt | gte | lte => exact netEffect_compare _
  | store addr => rw [exec_store]; exact netEffect_pop fun _ _ => netEffect_next
  | loadInd => rw [exec_loadInd_eq_popTwo]; exact netEffect_popTwo fun _ _ _ => netEffect_push _
  | storeInd => rw [exec_storeInd]; exact netEffect_popTwo fun _ _ _ => netEffect_pop fun _ _ => netEffect_next
  | jz addr => exact netEffect_branch (· = 0#8) addr
  | jnz addr => exact netEffect_branch (· ≠ 0#8) addr
  | call addr => rw [exec_call]; exact netEffect_pushThen _ fun _ => netEffect_pushThen _ fun _ => netEffect_next
  | ret => rw [exec_ret_eq_popTwo]; exact netEffect_popTwo fun _ _ _ => netEffect_next
  | io id => exact netEffect_io id he

/-- Settles O8, by induction on the sequence: each instruction has its net effect, and none of them faults. -/
theorem netStackEffect : Obligations.NetStackEffect := by
  intro prog
  induction prog with
  | nil =>
    rintro s t n ⟨rfl, rfl⟩
    exact (add_zero _).symm
  | cons i rest ih =>
    rintro s t n ⟨he, u, hexec, hfault, hrest⟩
    have hfirst := exec_netEffect i he u hexec hfault
    have htail := ih u t _ hrest
    omega

end Sys2Proof.Machine
end

section
/-! SUPPORT. The pump before an `IO` (R40, R169, R182), and the statement about the wait for a key and the polls. -/

namespace Sys2Proof.Machine

open Sys2Proof.Spec

/-! ### The key that the pump leaves (R182) -/

theorem latchEvents_append (h : HostContext) (es fs : List InputEvent) :
    latchEvents h (es ++ fs) = latchEvents (latchEvents h es) fs := by
  induction es generalizing h with
  | nil => rfl
  | cons e rest ih => exact ih (latchEvent h e)

theorem latchEvents_key_of_no_key (h : HostContext) {es : List InputEvent} (hes : ∀ b, InputEvent.key b ∉ es) :
    (latchEvents h es).key = h.key := by
  induction es generalizing h with
  | nil => rfl
  | cons e rest ih =>
    have hrest := ih (latchEvent h e) fun b hb => hes b (List.mem_cons_of_mem e hb)
    cases e with
    | key b => exact absurd List.mem_cons_self (hes b)
    | mouse x y mask => exact hrest

/-- Of the keys of one pump the last stands (R182). -/
theorem latchEvents_last_key (h : HostContext) (before : List InputEvent) (b : Byte) {after : List InputEvent}
    (hafter : ∀ c, InputEvent.key c ∉ after) : (latchEvents h (before ++ .key b :: after)).key = b := by
  rw [latchEvents_append]
  exact latchEvents_key_of_no_key _ hafter

/-! ### An iteration that fetches an `IO` -/

theorem step_io {s : State} {id : Byte} (hfetches : Fetches s) (hpc : s.pc ≤ 65534) (hop : s.mem.read s.pc = 0x21#8)
    (hid : s.mem.read (s.pc + 1) = id) : step s = exec (.io id) { pumped s with pc := s.pc + 2 } := by
  have hbytes : s.mem.bytesFrom s.pc 3 = encode (.io id) ++ s.mem.bytesFrom (s.pc + 2) 1 := by
    rw [Memory.bytesFrom, if_pos (by simp only [Config.memorySize]; omega), hop, Memory.bytesFrom,
      if_pos (by simp only [Config.memorySize]; omega), hid]
    rfl
  exact fetchedWith_fetchAdvance (.io id) s _ hfetches hbytes

/-- A poll pushes its flag, in the state after the pump, and moves `PC` past the `IO` (R174, R176). -/
theorem step_poll {s : State} (hfetches : Fetches s) (herr : s.error = .ok) (hroom : s.depth < 0xFFFF) (hpc : s.pc ≤ 65534)
    (hop : s.mem.read s.pc = 0x21#8) {flag : Bool}
    (hflag : (s.mem.read (s.pc + 1) = 0x20#8 ∧ (pumped s).host.keyAvailable = flag) ∨
      (s.mem.read (s.pc + 1) = 0x22#8 ∧ (pumped s).host.mouseEvent = flag)) :
    step s = .next { pumped s with
      pc := s.pc + 2
      sp := s.sp - 1
      mem := s.mem.write (s.sp.toNat - 1) (if flag then 1#8 else 0#8) } := by
  have hpoll := pollAndMouseButtonPushes { pumped s with pc := s.pc + 2 } herr hroom
  obtain ⟨hkey, hmouse, -⟩ := hpoll
  rcases hflag with ⟨hid, rfl⟩ | ⟨hid, rfl⟩
  · rw [step_io hfetches hpc hop hid, hkey]; rfl
  · rw [step_io hfetches hpc hop hid, hmouse]; rfl

/-! ### The wait -/

section Wait
variable {s : State} {answer : PumpAnswer} (hrun : s.running = true)
  (hanswer : pumpAnswer s = answer) (hpump : answer.shutdown = false)
include hrun hanswer hpump

/-- A pump without a key leaves the waiting block as it is. -/
theorem step_waits (hwait : s.host.waiting = true) (hnokey : s.host.keyAvailable = false)
    (hevents : ∀ b, InputEvent.key b ∉ answer.events) :
    step s = .next (pumped s) ∧ (pumped s).host.waiting = true ∧ (pumped s).host.keyAvailable = false := by
  obtain ⟨-, -, -, hwaiting⟩ := latchEvents_outputs (pumpAnswer s).events s.host
  obtain ⟨hflag, -⟩ := latchEvents_flags (pumpAnswer s).events s.host
  have hkeyless : (pumped s).host.keyAvailable = false := by
    rw [Bool.eq_false_iff]
    intro hkey
    rcases hflag.1 hkey with hbefore | ⟨b, hb⟩
    · simp [hnokey] at hbefore
    · exact hevents b (hanswer ▸ hb)
  have hstill : (pumped s).host.waiting = true := hwaiting.trans hwait
  refine ⟨step_waiting hrun (hanswer ▸ hpump) ?_, hstill, hkeyless⟩
  rw [hostWait, hstill, hkeyless]; rfl

/-- A pump with a key ends the wait: the iteration fetches. -/
theorem fetches_of_key {b : Byte} (hkey : InputEvent.key b ∈ answer.events) :
    Fetches s ∧ (pumped s).host.keyAvailable = true := by
  obtain ⟨hflag, -⟩ := latchEvents_flags (pumpAnswer s).events s.host
  have havail : (pumped s).host.keyAvailable = true := hflag.2 (.inr ⟨b, hanswer ▸ hkey⟩)
  refine ⟨⟨hrun, hanswer ▸ hpump, ?_⟩, havail⟩
  rw [hostWait, havail, Bool.not_true, Bool.and_false]

end Wait

/-- `READ_CHAR` in the iteration whose pump has latched a key: that key is pushed, and the wait is over (R169, R182). -/
theorem step_readChar {s : State} (hfetches : Fetches s) (herr : s.error = .ok) (havail : (pumped s).host.keyAvailable = true)
    (hroom : s.depth < 0xFFFF) (hpc : s.pc ≤ 65534) (hop : s.mem.read s.pc = 0x21#8) (hid : s.mem.read (s.pc + 1) = 0x02#8) :
    step s = .next (mapHost { pumped s with
      pc := s.pc + 2
      sp := s.sp - 1
      mem := s.mem.write (s.sp.toNat - 1) (pumped s).host.key } fun h => { h with keyAvailable := false, waiting := false }) := by
  rw [step_io hfetches hpc hop hid]
  exact (readCharProtocol { pumped s with pc := s.pc + 2 } herr).2 havail hroom

/-- Settles O46: the pump comes before the wait query and the fetch, so what it latches decides both. -/
theorem waitEndsWithAKey : Obligations.WaitEndsWithAKey := by
  constructor
  · intro s answer later hrun herr hwait hnokey hschedule hpump
    have hanswer : pumpAnswer s = answer := by rw [pumpAnswer, hschedule]; rfl
    refine ⟨fun hevents => ?_, fun b before after hevents hafter hpc hop hid hroom => ?_⟩
    · obtain ⟨hstep, hwaits, hkeyless⟩ := step_waits hrun hanswer hpump hwait hnokey hevents
      exact ⟨_, hstep, sameBlock_pumped s, hwaits, hkeyless⟩
    · have hkey : InputEvent.key b ∈ answer.events := by rw [hevents]; simp
      obtain ⟨hfetches, havail⟩ := fetches_of_key hrun hanswer hpump hkey
      have hlast : (pumped s).host.key = b := by
        rw [pumped_host, hanswer, hevents]
        exact latchEvents_last_key s.host before b hafter
      refine ⟨_, step_readChar hfetches herr havail hroom hpc hop hid, rfl, rfl, ?_, herr, hrun, rfl, rfl⟩
      rw [hlast]; rfl
  · intro s hfetches herr hroom hpc hop event hevent
    obtain ⟨hkey, hmouse⟩ := latchEvents_flags (pumpAnswer s).events s.host
    have hflag : (s.mem.read (s.pc + 1) = 0x20#8 ∧ (pumped s).host.keyAvailable = event) ∨
        (s.mem.read (s.pc + 1) = 0x22#8 ∧ (pumped s).host.mouseEvent = event) := by
      rcases hevent with ⟨hid, hiff⟩ | ⟨hid, hiff⟩
      · exact .inl ⟨hid, Bool.eq_iff_iff.2 (hkey.trans hiff.symm)⟩
      · exact .inr ⟨hid, Bool.eq_iff_iff.2 (hmouse.trans hiff.symm)⟩
    exact ⟨_, step_poll hfetches herr hroom hpc hop hflag, rfl, rfl, rfl, rfl, rfl, rfl⟩

end Sys2Proof.Machine
end

section
/-! SUPPORT. Pass one and pass two of the assembler on statements that fit (R86, R89 to R91), and the statements about the
image and about labels. -/

namespace Sys2Proof.Assembler

/-! ### Pass one -/

theorem passOne_append {p q : PassState} {items rest : List Item} {r : AsmResult PassState} (h : passOne p items = .ok q)
    (hrest : passOne q rest = r) : passOne p (items ++ rest) = r := by
  induction items generalizing p with
  | nil => cases h; exact hrest
  | cons item items ih =>
    rw [passOne] at h
    rw [List.cons_append, passOne]
    cases hitem : passItem p item with
    | error e => rw [hitem] at h; cases h
    | ok p' => rw [hitem] at h; exact ih h

theorem passOne_singleton {p q : PassState} {item : Item} (h : passItem p item = .ok q) : passOne p [item] = .ok q := by
  rw [passOne, h]
  rfl

theorem emitBytes_of_fits {p : PassState} {bytes : List Byte} (h : p.out.length + bytes.length ≤ Config.memorySize) :
    emitBytes p bytes = .ok { p with out := p.out ++ bytes } := if_pos h

/-- Numeric-operand statements that fit emit their encodings (R89, R91). -/
theorem passOne_plain_of_fits (prog : List Instr) {p : PassState}
    (h : p.out.length + (prog.flatMap encode).length ≤ Config.memorySize) :
    passOne p (prog.map .plain) = .ok { p with out := p.out ++ prog.flatMap encode } := by
  induction prog generalizing p with
  | nil => simp [passOne]
  | cons i prog ih =>
    rw [List.flatMap_cons, List.length_append] at h
    have hitem : passItem p (.plain i) = .ok { p with out := p.out ++ encode i } := emitBytes_of_fits (by omega)
    rw [List.map_cons, passOne, hitem]
    simp only
    rw [ih (by rw [List.length_append]; omega), List.append_assoc, List.flatMap_cons]

/-- Numeric-operand statements that do not fit are an error (R91). -/
theorem passOne_plain_too_long (prog : List Instr) {p : PassState} (hp : p.out.length ≤ Config.memorySize)
    (h : Config.memorySize < p.out.length + (prog.flatMap encode).length) :
    passOne p (prog.map .plain) = .error .outputTooLong := by
  induction prog generalizing p with
  | nil => simp only [List.flatMap_nil, List.length_nil] at h; omega
  | cons i prog ih =>
    rw [List.flatMap_cons, List.length_append] at h
    rw [List.map_cons, passOne, passItem]
    by_cases hfits : p.out.length + (encode i).length ≤ Config.memorySize
    · rw [emitBytes_of_fits hfits]
      exact ih (by rw [List.length_append]; omega) (by rw [List.length_append]; omega)
    · rw [emitBytes, if_neg hfits]

/-- Settles O59: the sum of the lengths decides, since no emission is undone. -/
theorem assemblerEmitsEncodings : Obligations.AssemblerEmitsEncodings := by
  refine fun prog => ⟨fun hfits => ?_, fun hlong => ?_⟩
  · have hpass := passOne_plain_of_fits prog (p := .start) (by simpa [PassState.start] using hfits)
    rw [assembleItems, hpass]
    rfl
  · have hpass := passOne_plain_too_long prog (p := .start) (Nat.zero_le _) (by simpa [PassState.start] using hlong)
    rw [assembleItems, hpass]
    rfl

/-! ### Labels -/

theorem passOne_labelled {p : PassState} (op : Byte) (name : List Char) (h : p.out.length + 3 ≤ Config.memorySize) :
    passOne p [.labelled op name] =
      .ok { p with out := p.out ++ [op, 0#8, 0#8], patches := p.patches ++ [(name, p.out.length + 1)] } :=
  passOne_singleton (if_pos h)

theorem passOne_define {p : PassState} {name : List Char} (hnew : labelPosition name p.labels = none)
    (h : p.out.length < Config.memorySize) :
    passOne p [.define name] = .ok { p with labels := p.labels ++ [(name, p.out.length)] } := by
  refine passOne_singleton ?_
  rw [passItem, hnew, if_neg (by simp), if_pos h]

theorem labelPosition_singleton (name : List Char) (n : Nat) : labelPosition name [(name, n)] = some n := by
  simp [labelPosition]

/-- The patch of the two placeholder bytes after an opcode (R90). -/
theorem set_placeholder (before after : List Byte) (op lo hi : Byte) :
    ((before ++ [op, 0#8, 0#8] ++ after).set (before.length + 1) lo).set (before.length + 1 + 1) hi =
      before ++ [op, lo, hi] ++ after := by
  induction before with
  | nil => rfl
  | cons v before ih => exact congrArg (v :: ·) ih

/-- Pass two with one reference and one label of its name (R90). -/
theorem passTwo_one_patch (before after : List Byte) (op : Byte) (name : List Char) (n : Nat) :
    passTwo
      { out := before ++ [op, 0#8, 0#8] ++ after
        labels := [(name, n)]
        patches := [(name, before.length + 1)]
        warnings := [] } =
      { image := before ++ [op, lowByte n, highByte n] ++ after, warnings := [], unresolved := [] } := by
  simp only [passTwo, List.foldl_cons, List.foldl_nil, applyPatch, labelPosition_singleton, set_placeholder]

section Label
variable {a b c : List Instr} (op : Byte) (name : List Char)
  (hsize : (a.flatMap encode).length + (b.flatMap encode).length + (c.flatMap encode).length + 3 < Config.memorySize)
include hsize

/-- Pass one over a reference before its definition. -/
theorem passOne_forward :
    passOne .start (a.map .plain ++ [.labelled op name] ++ b.map .plain ++ [.define name] ++ c.map .plain) = .ok
      { out := a.flatMap encode ++ [op, 0#8, 0#8] ++ b.flatMap encode ++ c.flatMap encode
        labels := [(name, (a.flatMap encode ++ [op, 0#8, 0#8] ++ b.flatMap encode).length)]
        patches := [(name, (a.flatMap encode).length + 1)]
        warnings := [] } := by
  have ha := passOne_plain_of_fits a (p := .start) (by grind [PassState.start])
  have href := passOne_labelled (p := { PassState.start with out := a.flatMap encode }) op name (by grind)
  have hb := passOne_plain_of_fits b (p := { PassState.start with
    out := a.flatMap encode ++ [op, 0#8, 0#8], patches := [(name, (a.flatMap encode).length + 1)] }) (by grind)
  have hdef := passOne_define (p := { PassState.start with
    out := a.flatMap encode ++ [op, 0#8, 0#8] ++ b.flatMap encode, patches := [(name, (a.flatMap encode).length + 1)] })
    (name := name) rfl (by grind)
  exact passOne_append (passOne_append (passOne_append (passOne_append ha href) hb) hdef)
    (passOne_plain_of_fits c (by grind))

/-- Pass one over a reference after its definition. -/
theorem passOne_backward :
    passOne .start (a.map .plain ++ [.define name] ++ b.map .plain ++ [.labelled op name] ++ c.map .plain) = .ok
      { out := a.flatMap encode ++ b.flatMap encode ++ [op, 0#8, 0#8] ++ c.flatMap encode
        labels := [(name, (a.flatMap encode).length)]
        patches := [(name, (a.flatMap encode ++ b.flatMap encode).length + 1)]
        warnings := [] } := by
  have ha := passOne_plain_of_fits a (p := .start) (by grind [PassState.start])
  have hdef := passOne_define (p := { PassState.start with out := a.flatMap encode }) (name := name) rfl (by grind)
  have hb := passOne_plain_of_fits b (p := { PassState.start with
    out := a.flatMap encode, labels := [(name, (a.flatMap encode).length)] }) (by grind)
  have href := passOne_labelled (p := { PassState.start with
    out := a.flatMap encode ++ b.flatMap encode, labels := [(name, (a.flatMap encode).length)] }) op name (by grind)
  exact passOne_append (passOne_append (passOne_append (passOne_append ha hdef) hb) href)
    (passOne_plain_of_fits c (by grind))

end Label

/-- Settles O60: pass one over the five parts in order, then the one patch, which finds the one label. -/
theorem labelsResolveToPositions : Obligations.LabelsResolveToPositions := by
  refine fun a b c op name hsize => ⟨?_, ?_⟩
  · have hposition : (a.flatMap encode ++ [op, 0#8, 0#8] ++ b.flatMap encode).length =
        (a.flatMap encode).length + 3 + (b.flatMap encode).length := by simp; omega
    rw [assembleItems, passOne_forward op name hsize, Except.map, hposition, List.append_assoc _ (b.flatMap encode),
      passTwo_one_patch, ← List.append_assoc]
  · rw [assembleItems, passOne_backward op name hsize, Except.map, passTwo_one_patch]

end Sys2Proof.Assembler
end
